-- ==== Sys2Proof/Word.lean ====
section
/-!
DEFINITION. The plain types of the block: bytes, 32-bit words, and the fixed-length word and byte
arrays the spec names (spec/00_scope.md R7, R8, R10).
-/

namespace Sys2Proof

/-- A byte of a key or nonce buffer, or an 8-bit field of a message (R8). -/
abbrev Byte := BitVec 8

/-- A word: 32 bits, unsigned, bit 0 the least significant (R7, R8).
Its `+` and `-` are modulo 2^32 and raise nothing (R10). -/
abbrev Word := BitVec 32

/-- A 16-word state: ES, PO, FS, the `IN` and `OUT` of an engine message (R7 `NW`, R20). -/
abbrev Words16 := Vector Word 16

/-- The 8-word subkey SK (R7 `SK_WORDS`, R25). -/
abbrev Words8 := Vector Word 8

/-- A key of the only accepted length, `KEY_BYTES` = 32 (R7). -/
abbrev Key := Vector Byte 32

/-- A nonce of the only accepted length, `NONCE_BYTES` = 24 (R7). -/
abbrev Nonce := Vector Byte 24

end Sys2Proof
end

