-- ==== Sys2Proof/Machine/Params.lean ====
section
/-!
DEFINITION. The constants of the block (spec/00_scope.md R7, spec/10_state.md R22): they are not
state, and no write, input, mode or reset changes them (R22, R31, R200).
-/

namespace Sys2Proof.Machine

/-- `KEY_BYTES` as the `KLEN` field spells it (R7, R82). -/
def keyBytes : Byte := 32

/-- `NONCE_BYTES` as the `NLEN` field spells it (R7, R82). -/
def nonceBytes : Byte := 24

/-- `ROUNDS`: the only value the block ever puts into a PREQ (R68, R121). -/
def rounds : BitVec 8 := 0x14

/-- `SIGMA[0..3]`, the text "expand 32-byte k" packed little-endian (R22). -/
def sigma : Vector Word 4 := #v[0x61707865, 0x3320646e, 0x79622d32, 0x6b206574]

/-- The 16 ASCII bytes of the sigma text (R22, spec/93_implementation_defined.md G1). -/
def sigmaText : Vector Byte 16 :=
  #v[0x65, 0x78, 0x70, 0x61, 0x6e, 0x64, 0x20, 0x33,
     0x32, 0x2d, 0x62, 0x79, 0x74, 0x65, 0x20, 0x6b]

/-- `XIDX[0..7]`, the extraction indices in their fixed order (R7, R140, R141). -/
def xidx : Vector (Fin 16) 8 := #v[0, 5, 10, 15, 6, 7, 8, 9]

/-- `COUNTER_INIT`: the words 12 and 13 of every published Final State. The value (0, 0) is the
spec's decision D6 for this hardware (R7, R163). DESIGN CHOICE of the spec (log entry 7), unsafe. -/
def counterInit : Vector Word 2 := #v[0x00000000, 0x00000000]

end Sys2Proof.Machine
end

