-- ==== Sys2Proof/Syntax.lean ====
section
/-!
DEFINITION. The syntax of the block: the CMD message as the command port carries it, and the one
instruction of the opcode table as data (spec/30_encoding.md R60 to R63, R70).
-/

namespace Sys2Proof

/-- A CMD message as the transport delivers it: the 32-bit command word, then the key bytes, then
the nonce bytes. It is the triple `(cw, KEYBUF, NONCEBUF)` of R63, so the length of each buffer is
known. Any word with any two buffers is a value of this type: what the interface cannot carry is
refused by `decode`. DEDUCED (log entry 15), unsafe for a host that breaks R207: the message does not
change while it waits. -/
structure Cmd where
  cw : Word
  keyBuf : List Byte
  nonceBuf : List Byte
  deriving DecidableEq, Repr

/-- The instructions of spec/opcode_table.json: one row, one constructor. -/
inductive Instr where
  /-- `DERIVE` (spec/40_derive.md R80), with the operands of R62: the two length fields of the
  command word, the key buffer or `none` for the ABSENT key (`KP = 0`), and the nonce buffer.
  `klen` stays an operand of its own, for with an absent key the field is carried and ignored
  (R61, spec/95_test_vectors.md V-V3). The buffers are the bytes sampled at acceptance (R47). -/
  | derive (klen nlen : Byte) (key : Option (List Byte)) (nonce : List Byte)
  deriving DecidableEq, Repr

end Sys2Proof
end

