-- ==== Sys2Proof/Machine/State.lean ====
section
/-!
DEFINITION. The state of the block and of its ports as plain data, the state after reset, and the
reasons a step can stop (spec/10_state.md R20 to R35, spec/30_encoding.md R60 and R66 to R69,
spec/60_exceptions.md R188).
-/

namespace Sys2Proof.Machine

/-- The block's mode bit (R21). -/
inductive Mode where
  | uninitialized
  | ready
  deriving DecidableEq, Repr

/-- The four outcomes of a command (R67, R180). -/
inductive Status where
  | ok
  | invalidKey
  | invalidNonce
  | illegalCommand
  deriving DecidableEq, Repr

/-- An RSP: the outcome, and the 16 words of the payload or `none` (R66). -/
structure Rsp where
  status : Status
  payload : Option Words16
  deriving DecidableEq, Repr

/-- A PREQ: `IN[0..15]` and the 8-bit `ROUNDS` field (R68). -/
structure Preq where
  input : Words16
  rounds : BitVec 8
  deriving DecidableEq, Repr

/-- A PRSP: `OUT[0..15]`, with no status (R69). -/
structure Prsp where
  out : Words16
  deriving DecidableEq, Repr

/-- One exchange on the engine port: a PREQ and the PRSP that answers it (R122, R193). -/
structure Exchange where
  preq : Preq
  prsp : Prsp
  deriving DecidableEq, Repr

/-- What an agent sees on the state output port (R28). -/
structure PortView where
  ready : Bool
  stateOut : Option Words16
  deriving DecidableEq, Repr

/-- What the outside world does at the ports (R6, R73). -/
inductive Event where
  /-- The host presents a CMD message on the command port (R60). -/
  | command (c : Cmd)
  /-- The reset input is asserted and released (R200, R201). -/
  | reset
  /-- `SAMPLE`: read `ready`, and `state_out` only when `ready = 1` (R73). -/
  | sample
  /-- The downstream generator reads `state_out` whatever `ready` shows (R32, R73). -/
  | readStateOut
  deriving DecidableEq, Repr

/-- An event with its moment: `overlaps` says that it comes while the DERIVE in front of it has been
accepted and has not responded (R87, R200, R205). With no DERIVE in front of it the mark means
nothing. -/
structure Input where
  event : Event
  overlaps : Bool
  deriving DecidableEq, Repr

/-- The names of the registers that can hold `none` (R32). -/
inductive Reg where
  | fs
  | es
  | po
  | sk
  deriving DecidableEq, Repr

/-- The state: the block's tuple `(mode, FS, ES, PO, SK)` of R20, and beside it the ports' data,
which no rule of the block reads. `none` is the spec's own value `none` (R32, R33).
DEDUCED (log entry 9), safe: a register holds a value in all its words or in none of them.
DESIGN CHOICE (log entry 16), unsafe for platforms that share an engine wrongly: one instance. -/
structure State where
  /-- The mode bit (R21). -/
  mode : Mode
  /-- The Final State `FS[0..15]` (R26). -/
  fs : Option Words16
  /-- The Engine State `ES[0..15]` (R23): a value only inside a DERIVE (R27). -/
  es : Option Words16
  /-- The Permutation Output `PO[0..15]` (R24): a value only inside a DERIVE (R27). -/
  po : Option Words16
  /-- The Subkey `SK[0..7]` (R25): a value only inside a DERIVE (R27). -/
  sk : Option Words8
  /-- What the outside does next, first in front (the model's own field, DESIGN CHOICE, log entry 2, safe). The commands
  that the command port holds off stand here (R87). -/
  inputs : List Input
  /-- The response port: the RSP the last step gave, if it gave one (model's own field, log
  entry 3). -/
  rsp : Option Rsp
  /-- The engine port: the exchanges of the last step (model's own field, log entry 3). -/
  exchanges : List Exchange
  /-- The state output port: what each sample or read of the last step saw, oldest first (model's own
  field, log entry 3). -/
  sampled : List PortView
  deriving DecidableEq, Repr

/-- The block right after reset (R33, R201): Uninitialized, every register `none`. No event is
waiting and no port has carried anything. -/
def State.reset : State :=
  { mode := .uninitialized
    fs := none
    es := none
    po := none
    sk := none
    inputs := []
    rsp := none
    exchanges := []
    sampled := [] }

/-- The faults of the model: exactly the three that R188 lists. Each stops the model where hardware
would go on with something the spec gives no value to, so each is safe. -/
inductive Fault where
  /-- A read of a register that holds `none` (R32, R73). Raised for FS by a read of `state_out` while
  `ready = 0`, never by SAMPLE; for ES, PO and SK by a phase that runs outside a DERIVE, which no step
  does. Safe. -/
  | readNone (r : Reg)
  /-- A `MemRead` beyond the end of its buffer (R42). Raised by DERIVE on operands no message can
  carry: after VALIDATE it is out of reach (spec/93_implementation_defined.md U11). Safe. -/
  | memReadOutOfBounds
  /-- A sample of `state_out` between the acceptance of a DERIVE and its response (R188, R205, U12): a
  read of `state_out`, or a SAMPLE while `ready = 1`. Raised by the step that accepts that DERIVE.
  Safe. -/
  | sampledDuringDerive
  deriving DecidableEq, Repr

/-- The refusals of the model. -/
inductive Refusal where
  /-- An instruction of the opcode table that has no meaning yet. Raised by no arm of `exec`. Safe. -/
  | notModelled (mnemonic : String)
  /-- A message whose buffer lengths disagree with its command word: not a command this interface
  can carry, refused before the block (R63). Raised by the step that would accept it. Safe. -/
  | bufferLengthMismatch
  deriving DecidableEq, Repr

end Sys2Proof.Machine
end

