-- ==== Sys2Proof/Machine/Operands.lean ====
section
/-!
DEFINITION. Reading the operands of a command: `MemRead` over an input buffer, the little-endian
packing `le32`, the byte view of the Final State, and the check of the lengths
(spec/20_memory.md R41 to R46, spec/40_derive.md R82).
-/

namespace Sys2Proof.Machine

/-- `MemRead(buf, off, n)`: the bytes `buf[off:off+n)`, and a fault where the buffer does not hold
them all (R42). -/
def memRead (buf : List Byte) (off n : Nat) : Except Fault (Vector Byte n) :=
  if h : off + n ≤ buf.length then
    .ok (Vector.ofFn fun i : Fin n => buf[off + i.val])
  else .error .memReadOutOfBounds

/-- `le32(buf, off)`: the little-endian word at byte offset `off`, the only conversion from bytes
to words in the block (R43, R44). Its bytes lie inside the buffer by its last argument. -/
def le32 {n : Nat} (buf : Vector Byte n) (off : Nat) (h : off + 4 ≤ n := by decide) : Word :=
  (buf[off]).setWidth 32 ||| (buf[off + 1]).setWidth 32 <<< 8
    ||| (buf[off + 2]).setWidth 32 <<< 16 ||| (buf[off + 3]).setWidth 32 <<< 24

/-- The 64-byte view of a 16-word state: byte `4*i + k` is bits `[8k+7 : 8k]` of word `i` (R45). -/
def byteView (ws : Words16) : Vector Byte 64 :=
  Vector.ofFn fun b : Fin 64 => (ws[b.val / 4]).extractLsb' (8 * (b.val % 4)) 8

/-- VALIDATE: the error that ends the command, or `none` to go on to LAYOUT. It reads `KP`, `KLEN`
and `NLEN` and no buffer byte, the key's check before the nonce's (R82, R184). -/
def validate (kp : Bool) (klen nlen : Byte) : Option Status :=
  if kp = false then some .invalidKey
  else if klen ≠ keyBytes then some .invalidKey
  else if nlen ≠ nonceBytes then some .invalidNonce
  else none

end Sys2Proof.Machine
end

