-- ==== Sys2Proof/Config.lean ====
section
/-!
DEFINITION. What the block is given and does not fix: the Permutation Engine attached to its engine
port. It is the spec's one OPEN parameter (spec/00_scope.md R7, spec/92_eei_decisions.md D3,
spec/93_implementation_defined.md U1, U2).
-/

namespace Sys2Proof

/-- `PERMUTE20`: the total function from 16 words to 16 words that the attached Permutation Engine
computes for a request with 20 rounds (spec/42_permutation.md R120).
It has NO BODY: nothing proved of the block rests on what it computes, so a theorem about the block
holds for every engine of R120's contract. Being a function, it is pure, deterministic and total,
which is all of the contract that the block's own rules use (R120, items 1 and 2).
DESIGN CHOICE (log entry 1), safe: the free value of this model. -/
opaque Config.permute20 : Words16 → Words16

end Sys2Proof
end

