-- ==== Sys2Proof/Machine/Flags.lean ====
section
/-!
DEFINITION. The bits the block shows of its outcomes. It has no flags or condition codes but `mode`
(spec/10_state.md R30): what is computed here is the `ready` line (R21, R28) and the status word of
a response (spec/30_encoding.md R66, R67).
-/

namespace Sys2Proof.Machine

/-- The `ready` line: Uninitialized is 0 and Ready is 1 (R21, R28). -/
def Mode.readyLine : Mode → Bool
  | .uninitialized => false
  | .ready => true

/-- The `STATUS` codes (R67). Codes `0x04` to `0xFF` are never produced. -/
def Status.code : Status → Byte
  | .ok => 0x00
  | .invalidKey => 0x01
  | .invalidNonce => 0x02
  | .illegalCommand => 0x03

/-- The RSP status word: `STATUS` in bits 7:0, and bits 31:8 always 0 (R66). -/
def Rsp.statusWord (r : Rsp) : Word := r.status.code.setWidth 32

end Sys2Proof.Machine
end

