-- ==== Sys2Proof/Machine/Ops.lean ====
section
/-!
DEFINITION. The shared operations over the state: register reads that fault on `none`, what a step
drives on the ports, raising an error (the block's only exceptional outcome), publishing, reset, and
the state output port (spec/10_state.md R26 to R33, spec/44_final_state.md R165,
spec/60_exceptions.md R183, spec/70_reset_and_hazards.md R200).
-/

namespace Sys2Proof.Machine

/-- A register read: its value, or the fault that R32 and R188 give a read of `none`. They name two
cases: `state_out` while `ready = 0`, and ES, PO or SK outside a DERIVE; no command meets either. -/
def readReg {α : Type} (r : Reg) : Option α → Except Fault α
  | some v => .ok v
  | none => .error (.readNone r)

/-- What this step carried on the response, engine and state output ports: it takes the place of
whatever an earlier step carried, for no status is kept (R30). -/
def State.drive (rsp : Option Rsp) (exchanges : List Exchange) (sampled : List PortView)
    (s : State) : State :=
  { s with rsp := rsp, exchanges := exchanges, sampled := sampled }

/-- No port carries anything. -/
def State.quiet (s : State) : State := s.drive none [] []

/-- `raise E`: the response `(E, none)`, no PREQ, and no write to `mode`, FS, ES, PO or SK (R183).
There is no handler to enter, no saved state and so no return from one (R187): the block is ready
for the next command. -/
def State.raise (e : Status) (s : State) : State :=
  s.drive (some { status := e, payload := none }) [] []

/-- PUBLISH: FS and `mode` in one update, the response `(OK, FS')` (R165), and the working registers
without a value again, as they are outside a DERIVE (R27). The exchanges of this step stay. -/
def State.publish (fs : Words16) (s : State) : State :=
  { s with
    mode := .ready
    fs := some fs
    es := none
    po := none
    sk := none
    rsp := some { status := .ok, payload := some fs } }

/-- The reset input: the reset state (R200). What the outside does next is not the block's state
and stays. DESIGN CHOICE (log entry 5), unsafe: commands that were held off wait on. -/
def State.applyReset (s : State) : State := { State.reset with inputs := s.inputs }

/-- One PREQ with `ROUNDS = 20` and the PRSP the engine gives for it (R68, R69, R120, R122). -/
def askEngine (permute : Words16 → Words16) (input : Words16) : Exchange :=
  { preq := { input := input, rounds := rounds }, prsp := { out := permute input } }

/-- `state_out` as the port shows it: FS when `ready = 1`, `none` when `ready = 0` (R28). -/
def State.stateOut (s : State) : Option Words16 :=
  if s.mode.readyLine then s.fs else none

/-- What an agent sees on the state output port (R28). -/
def State.portView (s : State) : PortView :=
  { ready := s.mode.readyLine, stateOut := s.stateOut }

/-- The agents at the state output port also saw these views in this step, before any other. -/
def State.seenFirst (seen : List PortView) (s : State) : State :=
  { s with sampled := seen ++ s.sampled }

/-- The outcome of a computation that may fault. -/
def toOutcome : Except Fault State → Host.Outcome State Fault Refusal
  | .ok s => .next s
  | .error f => .fault f

end Sys2Proof.Machine
end

