-- ==== Sys2Proof/Machine/Derive.lean ====
section
/-!
DEFINITION. The meaning of `DERIVE`: its phases LAYOUT, PERMUTE, EXTRACT, ASSEMBLE and PUBLISH, the
whole computation as one function, and the command (spec/40_derive.md R80 to R87,
spec/41_initial_layout.md, spec/42_permutation.md, spec/43_subkey_extraction.md,
spec/44_final_state.md).
-/

namespace Sys2Proof.Machine

/-- LAYOUT as a function: the Engine State of a key and a nonce (R100 to R104). -/
def layout (key : Key) (nonce : Nonce) : Words16 :=
  #v[sigma[0], sigma[1], sigma[2], sigma[3],
     le32 key 0, le32 key 4, le32 key 8, le32 key 12,
     le32 key 16, le32 key 20, le32 key 24, le32 key 28,
     le32 nonce 0, le32 nonce 4,
     le32 nonce 8, le32 nonce 12]

/-- EXTRACT as a function: `SK[j] = PO[XIDX[j]] - ES[XIDX[j]]` modulo 2^32 (R140). -/
def extract (po es : Words16) : Words8 :=
  Vector.ofFn fun j : Fin 8 => po[xidx[j]] - es[xidx[j]]

/-- ASSEMBLE as a function: the Final State of a subkey and the last nonce segment (R160 to R164). -/
def assemble (sk : Words8) (nonce : Nonce) : Words16 :=
  #v[sigma[0], sigma[1], sigma[2], sigma[3],
     sk[0], sk[1], sk[2], sk[3], sk[4], sk[5], sk[6], sk[7],
     counterInit[0], counterInit[1],
     le32 nonce 16, le32 nonce 20]

/-- `DeriveFS(key, nonce)`: the Final State a DERIVE publishes, for the engine `permute` (R84). -/
def deriveFS (permute : Words16 → Words16) (key : Key) (nonce : Nonce) : Words16 :=
  let es := layout key nonce
  let po := permute es
  let sk := extract po es
  assemble sk nonce

/-- The phase LAYOUT: writes ES (R100). -/
def layoutPhase (key : Key) (nonce : Nonce) (s : State) : State :=
  { s with es := some (layout key nonce) }

/-- The phase PERMUTE: one PREQ that carries ES, the PRSP's words into PO as they are; ES stays
(R121 to R124). -/
def permutePhase (permute : Words16 → Words16) (s : State) : Except Fault State := do
  let es ← readReg .es s.es
  let exchange := askEngine permute es
  return { s with po := some exchange.prsp.out, exchanges := s.exchanges ++ [exchange] }

/-- The phase EXTRACT: reads PO, and ES as LAYOUT wrote it; writes SK (R140, R144). -/
def extractPhase (s : State) : Except Fault State := do
  let po ← readReg .po s.po
  let es ← readReg .es s.es
  return { s with sk := some (extract po es) }

/-- The phases ASSEMBLE and PUBLISH: reads SK; the staging value becomes architectural through
`publish` alone (R160, R165). -/
def assembleAndPublish (nonce : Nonce) (s : State) : Except Fault State := do
  let sk ← readReg .sk s.sk
  return s.publish (assemble sk nonce)

/-- What follows VALIDATE: the snapshot of the two buffers (R42, R47), and the four phases in their
fixed order (R29). DEDUCED (log entry 17), safe: of a longer buffer, which no message carries, the
first 32 or 24 bytes are read. -/
def computePhases (permute : Words16 → Words16) (keyBuf nonceBuf : List Byte) (s : State) :
    Except Fault State := do
  let key ← memRead keyBuf 0 32
  let nonce ← memRead nonceBuf 0 24
  let s ← permutePhase permute (layoutPhase key nonce s.quiet)
  let s ← extractPhase s
  assembleAndPublish nonce s

/-- DERIVE for an engine `permute` (R80): VALIDATE raises its error before anything is read or
written (R83), or the phases run. An absent key has no buffer, and VALIDATE has turned it away. -/
def deriveWith (permute : Words16 → Words16) (klen nlen : Byte) (key : Option (List Byte))
    (nonce : List Byte) (s : State) : Host.Outcome State Fault Refusal :=
  match validate key.isSome klen nlen with
  | some e => .next (s.raise e)
  | none => toOutcome (computePhases permute (key.getD []) nonce s)

/-- `DERIVE` with the attached Permutation Engine: one atomic step from acceptance to response
(R6, R80, R81). DEDUCED (log entry 14), unsafe where an engine can hang. -/
def execDerive (klen nlen : Byte) (key : Option (List Byte)) (nonce : List Byte) (s : State) :
    Host.Outcome State Fault Refusal :=
  deriveWith Config.permute20 klen nlen key nonce s

end Sys2Proof.Machine
end

