-- ==== Sys2Proof/Machine/Dispatch.lean ====
section
/-!
DEFINITION. The meaning of every instruction of spec/opcode_table.json: one arm per constructor.
-/

namespace Sys2Proof.Machine

def exec (i : Instr) (s : State) : Host.Outcome State Fault Refusal :=
  match i with
  | .derive klen nlen key nonce => Sys2Proof.Machine.execDerive klen nlen key nonce s

end Sys2Proof.Machine
end

