-- ==== Sys2Proof/WellFormed.lean ====
section
/-!
DEFINITION. Which instructions a CMD message can carry: the buffers are as long as the command
word's length fields say (spec/30_encoding.md R63).
-/

namespace Sys2Proof

/-- Exactly `KLEN` key bytes when a key is present; an absent key has no bytes to count, and any
`KLEN` beside it is ignored (R61, R63). -/
def keyFits (klen : Byte) : Option (List Byte) → Bool
  | none => true
  | some buf => decide (buf.length = klen.toNat)

/-- Exactly `NLEN` nonce bytes (R63). -/
def nonceFits (nlen : Byte) (nonce : List Byte) : Bool :=
  decide (nonce.length = nlen.toNat)

/-- An instruction that some CMD message carries. -/
def WellFormed : Instr → Bool
  | .derive klen nlen key nonce => keyFits klen key && nonceFits nlen nonce

end Sys2Proof
end

