-- ==== Sys2Proof/Decode.lean ====
section
/-!
DEFINITION. From a CMD message to an instruction and back: the fields of the command word, the
decoder, the encoder, the assembler of `DERIVE key=…, nonce=…`, and the message that the bits of an
opcode-table word stand for (spec/30_encoding.md R61 to R65, R70 to R73).
-/

namespace Sys2Proof

/-- `OP`, bits 7:0 (R61). -/
def fieldOp (cw : Word) : Byte := cw.extractLsb' 0 8

/-- `KP`, bit 8 (R61): a key buffer follows. -/
def fieldKp (cw : Word) : Bool := cw.getLsbD 8

/-- `RSV`, bits 15:9 (R61): must be zero. -/
def fieldRsv (cw : Word) : BitVec 7 := cw.extractLsb' 9 7

/-- `KLEN`, bits 23:16 (R61). -/
def fieldKlen (cw : Word) : Byte := cw.extractLsb' 16 8

/-- `NLEN`, bits 31:24 (R61). -/
def fieldNlen (cw : Word) : Byte := cw.extractLsb' 24 8

/-- `OP` of `DERIVE` (R61). -/
def opDerive : Byte := 0x01

/-- How many key bytes follow the command word: `KLEN` when `KP = 1`, none when `KP = 0` (R63). -/
def keyLength (cw : Word) : Nat := if fieldKp cw then (fieldKlen cw).toNat else 0

/-- How many nonce bytes follow the key bytes (R63). -/
def nonceLength (cw : Word) : Nat := (fieldNlen cw).toNat

/-- The length of a whole CMD message in bytes, read from the command word alone (R72). -/
def messageLength (cw : Word) : Nat := 4 + keyLength cw + nonceLength cw

/-- Why a message does not decode to an instruction. -/
inductive DecodeError where
  /-- The buffers are not as long as the command word says: not a command this interface can
  carry, refused before the block (R63). -/
  | bufferLengths
  /-- The command word is not `DERIVE`: the block answers `ILLEGAL_COMMAND` (R71). -/
  | illegalCommand
  deriving DecidableEq, Repr

/-- The interface can carry the message: the transport delivers exactly the bytes that the command
word announces (R63). -/
def Deliverable (c : Cmd) : Bool :=
  decide (c.keyBuf.length = keyLength c.cw) && decide (c.nonceBuf.length = nonceLength c.cw)

/-- `OP` is `DERIVE`'s and every `RSV` bit is 0 (R70, R71). -/
def isDerive (cw : Word) : Bool := fieldOp cw == opDerive && fieldRsv cw == 0

/-- The decoder. The transport's check comes first (R63: that refusal happens before the block),
then the opcode (R70, R71); the operands are R62's. -/
def decode (c : Cmd) : Except DecodeError Instr :=
  if Deliverable c then
    if isDerive c.cw then
      .ok (.derive (fieldKlen c.cw) (fieldNlen c.cw)
        (if fieldKp c.cw then some c.keyBuf else none) c.nonceBuf)
    else .error .illegalCommand
  else .error .bufferLengths

/-- The command word of a `DERIVE`: `OP | KP<<8 | KLEN<<16 | NLEN<<24` (R65). -/
def commandWord (kp : Bool) (klen nlen : Byte) : Word :=
  opDerive.setWidth 32 ||| ((BitVec.ofBool kp).setWidth 32 <<< 8) ||| (klen.setWidth 32 <<< 16)
    ||| (nlen.setWidth 32 <<< 24)

/-- The encoder: the CMD message that carries an instruction. -/
def encode : Instr → Cmd
  | .derive klen nlen key nonce =>
    { cw := commandWord key.isSome klen nlen, keyBuf := key.getD [], nonceBuf := nonce }

/-- The length a host presents for a buffer of `n` bytes: 255 stands for every longer one (R64). -/
def presentedLength (n : Nat) : Byte := BitVec.ofNat 8 (min n 255)

/-- The message a host sends for `DERIVE key=…, nonce=…` (R73): `KLEN` and `NLEN` are the presented
lengths, and the transport carries that many bytes. An absent key gives `KP = 0` and `KLEN = 0`.
DESIGN CHOICE (log entry 8), safe: of a buffer longer than 255 bytes the first 255 are sent; the
block reads none of them. -/
def assembleDerive (key : Option (List Byte)) (nonce : List Byte) : Cmd :=
  { cw := commandWord key.isSome (presentedLength (key.getD []).length)
      (presentedLength nonce.length)
    keyBuf := (key.getD []).take 255
    nonceBuf := nonce.take 255 }

/-- Byte `j` of the buffers, in a number whose bits 31:0 are the command word and whose later bits
are the bytes that follow it, in the order they are delivered. -/
def bufferByte (v j : Nat) : Byte := BitVec.ofNat 8 (v >>> (32 + 8 * j))

/-- The CMD message whose bits are `w`, numbered as spec/opcode_table.json numbers them: bits 31:0
are the command word, the bytes after it count on from bit 32, key bytes before nonce bytes, and
every bit from `nbits` on is 0. The message is as long as its command word says (R72). -/
def tableCmd (nbits w : Nat) : Cmd :=
  let v := w % 2 ^ nbits
  let cw : Word := BitVec.ofNat 32 v
  { cw := cw
    keyBuf := (List.range (keyLength cw)).map (bufferByte v)
    nonceBuf := (List.range (nonceLength cw)).map fun j => bufferByte v (keyLength cw + j) }

/-- The instruction the decoder reads from an opcode-table word (`none` where it reads none). -/
def decodeTableWord (nbits w : Nat) : Option Instr :=
  match decode (tableCmd nbits w) with
  | .ok i => some i
  | .error _ => none

end Sys2Proof
end

