-- ==== Sys2Proof/Machine/Ports.lean ====
section
/-!
DEFINITION. What happens at the ports: the command port accepts, holds off, refuses or answers
illegal words; the reset input; the samples of the state output port; and what may come between the
acceptance of a DERIVE and its response (spec/30_encoding.md R63, R71, R73, spec/40_derive.md R87,
spec/60_exceptions.md R185, spec/70_reset_and_hazards.md R200, R205).
-/

namespace Sys2Proof.Machine

/-- What the outside does between the acceptance of a DERIVE and its response. -/
inductive Window where
  /-- Nothing stops the DERIVE. `seen` is what the samples in the window saw; `rest` is what the
  outside does after the response, the commands that were held off (R87) in front. -/
  | undisturbed (seen : List PortView) (rest : List Input)
  /-- The reset input: the DERIVE is abandoned (R200). `seen` is what the samples before the reset
  saw; `rest` is what the outside does after it, the commands that were held off in front. -/
  | abandoned (seen : List PortView) (rest : List Input)
  /-- A sample of `state_out`, which R205 forbids. -/
  | sampled
  deriving DecidableEq, Repr

/-- A command in front of the window waits, in its place in the queue (R87, R208). -/
def Window.hold (i : Input) : Window → Window
  | .undisturbed seen rest => .undisturbed seen (i :: rest)
  | .abandoned seen rest => .abandoned seen (i :: rest)
  | .sampled => .sampled

/-- A sample in front of the window has seen the port. -/
def Window.see (view : PortView) : Window → Window
  | .undisturbed seen rest => .undisturbed (view :: seen) rest
  | .abandoned seen rest => .abandoned (view :: seen) rest
  | .sampled => .sampled

/-- What the inputs that overlap a DERIVE just accepted do in its window, while the port shows `view`,
the pair `(mode, FS)` of before the DERIVE (R50, R81). A command waits until the response (R87); a
SAMPLE while `ready = 0` reads `ready` alone and sees the port (R73); a read of `state_out`, or a
SAMPLE while `ready = 1`, is a sample of `state_out` (R188, R205). The first reset or sample of
`state_out` decides. DEDUCED (log entry 12), safe: the window is that of every DERIVE. -/
def window (view : PortView) : List Input → Window
  | [] => .undisturbed [] []
  | i :: rest =>
    if i.overlaps then
      match i.event with
      | .command _ => (window view rest).hold i
      | .sample => if view.ready then .sampled else (window view rest).see view
      | .readStateOut => .sampled
      | .reset => .abandoned [] rest
    else .undisturbed [] (i :: rest)

/-- `SAMPLE`: reads `ready`, and `state_out` only when `ready = 1`, so it never faults (R28, R73).
DEDUCED (log entry 19), safe: that holds also in the states no run reaches where `mode` is Ready and
FS holds `none`. -/
def State.doSample (s : State) : Host.Outcome State Fault Refusal :=
  .next (s.drive none [] [s.portView])

/-- A read of `state_out` whatever `ready` shows: the port's value, or the fault that R32, R73, D12
and U6 give the read while `ready = 0`. -/
def State.doRead (s : State) : Host.Outcome State Fault Refusal :=
  match readReg .fs s.stateOut with
  | .ok _ => .next (s.drive none [] [s.portView])
  | .error f => .fault f

/-- A step whose next state also shows what was seen before the instruction's own effect. -/
def afterSeeing (seen : List PortView) :
    Host.Outcome State Fault Refusal → Host.Outcome State Fault Refusal
  | .next t => .next (t.seenFirst seen)
  | .fault f => .fault f
  | .refused r => .refused r

/-- What one step is about to do: it is settled at the ports, or a decoded instruction runs on `s`
after the samples in its window have seen `seen`. -/
inductive Turn where
  | settled (o : Host.Outcome State Fault Refusal)
  | run (i : Instr) (s : State) (seen : List PortView)

/-- The command port takes a CMD message, the inputs being what the outside does after it: the
transport refuses what it cannot carry (R63), the decoder answers an illegal word (R71, R185), and a
DERIVE runs unless its window is disturbed (R200, R205).
DESIGN CHOICE (log entry 10), safe: the refusal ends the run. DESIGN CHOICE (log entry 11), unsafe:
an illegal word is answered and has no window. DEDUCED (log entry 13), unsafe: an abandoned DERIVE
shows no exchange. -/
def State.accept (c : Cmd) (s : State) : Turn :=
  match decode c with
  | .error .bufferLengths => .settled (.refused .bufferLengthMismatch)
  | .error .illegalCommand => .settled (.next (s.raise .illegalCommand))
  | .ok i =>
    match window s.portView s.inputs with
    | .undisturbed seen rest => .run i { s with inputs := rest } seen
    | .abandoned seen rest =>
      .settled (.next ({ s with inputs := rest }.applyReset.seenFirst seen))
    | .sampled => .settled (.fault .sampledDuringDerive)

/-- The next event takes place. With none waiting, the block waits for a command and nothing
changes but that the ports fall quiet.
DESIGN CHOICE (log entry 4), unsafe: the spec names no event-free step. -/
def State.turn (s : State) : Turn :=
  match s.inputs with
  | [] => .settled (.next s.quiet)
  | i :: rest =>
    match i.event with
    | .command c => { s with inputs := rest }.accept c
    | .reset => .settled (.next { s with inputs := rest }.applyReset)
    | .sample => .settled { s with inputs := rest }.doSample
    | .readStateOut => .settled { s with inputs := rest }.doRead

/-- The inputs without the marks of those in front that would overlap a command put before them. -/
def afterwards : List Input → List Input
  | [] => []
  | i :: rest => if i.overlaps then { i with overlaps := false } :: afterwards rest else i :: rest

/-- The host presents a message as the very next event, and everything else comes after its
response. -/
def State.present (c : Cmd) (s : State) : State :=
  { s with inputs := { event := .command c, overlaps := false } :: afterwards s.inputs }

end Sys2Proof.Machine
end

