-- ==== Sys2Proof/Machine/Step.lean ====
section
/-!
DEFINITION. One step of the machine: the next event at the ports, a whole command being one step
(spec/00_scope.md R6). The block has no program counter and fetches nothing (spec/10_state.md R29):
its next instruction is the command that stands first on the command port.
-/

namespace Sys2Proof.Machine

/-- One step: the next event takes place; a DERIVE runs from acceptance to response, and the step
shows what the samples in its window saw beside what the DERIVE does. -/
def step (s : State) : Host.Outcome State Fault Refusal :=
  match s.turn with
  | .settled o => o
  | .run i s' seen => afterSeeing seen (exec i s')

/-- The state with the message of an opcode-table word presented on the command port, so that the
next step accepts it (log entry 6). -/
def State.withFetchWord (s : State) (nbits w : Nat) : State := s.present (tableCmd nbits w)

end Sys2Proof.Machine
end

