-- ==== Sys2Proof/Machine/Assembler.lean ====
section
/-!
DEFINITION. The textual syntax of commands and host actions: what a line of a program stands for at
the ports (spec/30_encoding.md R73). It is notation, and no step reads it.
-/

namespace Sys2Proof.Machine

/-- A line in the syntax of R73. `CMD` spells its command word and sends it unchanged. -/
inductive AsmLine where
  | derive (key : Option (List Byte)) (nonce : List Byte)
  | cmd (cw : Word) (key : Option (List Byte)) (nonce : List Byte)
  | reset
  | sample
  deriving DecidableEq, Repr

/-- The event a line stands for (R73). -/
def AsmLine.event : AsmLine → Event
  | .derive key nonce => .command (assembleDerive key nonce)
  | .cmd cw key nonce => .command { cw := cw, keyBuf := key.getD [], nonceBuf := nonce }
  | .reset => .reset
  | .sample => .sample

/-- The value of one hex digit, in either case. -/
def hexDigit (c : Char) : Option Nat :=
  if '0' ≤ c ∧ c ≤ '9' then some (c.toNat - '0'.toNat)
  else if 'a' ≤ c ∧ c ≤ 'f' then some (c.toNat - 'a'.toNat + 10)
  else if 'A' ≤ c ∧ c ≤ 'F' then some (c.toNat - 'A'.toNat + 10)
  else none

/-- An even-length string of hex digits, one byte per two digits, byte 0 first (R73). -/
def parseHex : List Char → Option (List Byte)
  | [] => some []
  | [_] => none
  | h :: l :: rest =>
    match hexDigit h, hexDigit l, parseHex rest with
    | some h, some l, some bytes => some (BitVec.ofNat 8 (16 * h + l) :: bytes)
    | _, _, _ => none

/-- What follows `pre` in `text`, where `text` starts with it. -/
def after : (pre text : List Char) → Option (List Char)
  | [], text => some text
  | _ :: _, [] => none
  | p :: pre, c :: text => if p = c then after pre text else none

/-- `<hex|absent>, nonce=<hex>`: the operands after `key=` (R73). -/
def parseOperands (text : List Char) : Option (Option (List Byte) × List Byte) := do
  let nonce ← after [',', ' ', 'n', 'o', 'n', 'c', 'e', '='] (text.dropWhile (· ≠ ','))
  let nonce ← parseHex nonce
  let key := text.takeWhile (· ≠ ',')
  if key = ['a', 'b', 's', 'e', 'n', 't'] then return (none, nonce)
  let key ← parseHex key
  return (some key, nonce)

/-- The command word spelled by 8 hex digits, the most significant first (R73). -/
def parseCommandWord (text : List Char) : Option Word :=
  match parseHex text with
  | some [b3, b2, b1, b0] => some (b3 ++ b2 ++ b1 ++ b0)
  | _ => none

/-- A line of a program (R73). -/
def parseLine (text : List Char) : Option AsmLine :=
  if text = ['R', 'E', 'S', 'E', 'T'] then some .reset
  else if text = ['S', 'A', 'M', 'P', 'L', 'E'] then some .sample
  else
    match after ['D', 'E', 'R', 'I', 'V', 'E', ' ', 'k', 'e', 'y', '='] text with
    | some operands => do
      let (key, nonce) ← parseOperands operands
      return .derive key nonce
    | none => do
      let word ← after ['C', 'M', 'D', ' ', '0', 'x'] text
      let cw ← parseCommandWord (word.take 8)
      let operands ← after [',', ' ', 'k', 'e', 'y', '='] (word.drop 8)
      let (key, nonce) ← parseOperands operands
      return .cmd cw key nonce

end Sys2Proof.Machine
end

