-- ==== Sys2Proof/Safety.lean ====
section
/-!
DEFINITION. What counts as a good state and an orderly outside, in the words the statements use
(spec/10_state.md R27, R35, spec/44_final_state.md R167, spec/70_reset_and_hazards.md R202 to R208).
-/

namespace Sys2Proof.Machine

/-- `mode = Ready` exactly when FS holds a value (R35). -/
def ModeMatchesFS (s : State) : Prop := s.mode = .ready ↔ s.fs.isSome = true

/-- ES, PO and SK hold `none`, as they do outside a DERIVE (R27). -/
def WorkingRegistersEmpty (s : State) : Prop := s.es = none ∧ s.po = none ∧ s.sk = none

/-- A value in FS is the Final State of some key and nonce (R35, R84). -/
def FSIsDerived (s : State) : Prop :=
  ∀ fs, s.fs = some fs → ∃ (key : Key) (nonce : Nonce), fs = deriveFS Config.permute20 key nonce

/-- The response port carries FS as its payload on `OK`, with the block Ready, and `none` on an
error (R66, R165). -/
def ResponseAgrees (s : State) : Prop :=
  ∀ r, s.rsp = some r →
    (r.status = .ok → s.mode = .ready ∧ s.fs = r.payload ∧ r.payload.isSome = true) ∧
    (r.status ≠ .ok → r.payload = none)

/-- The engine port carried one exchange when the response is `OK` and none otherwise, and each
exchange is a request for 20 rounds with the engine's own answer (R68, R121, R193). -/
def EngineUseAgrees (s : State) : Prop :=
  (s.exchanges.length = if (s.rsp.any fun r => r.status == .ok) then 1 else 0) ∧
  ∀ e ∈ s.exchanges, e.preq.rounds = 20 ∧ e.prsp.out = Config.permute20 e.preq.input

/-- The invariant of the machine. -/
def Inv (s : State) : Prop :=
  ModeMatchesFS s ∧ WorkingRegistersEmpty s ∧ FSIsDerived s ∧ ResponseAgrees s ∧ EngineUseAgrees s

/-- The agents outside keep their duties for the next event: the transport delivers what the command
word announces (R63), no one samples `state_out` during a DERIVE (R205), and no one reads `state_out`
while `ready = 0` (R32, R202). The window is that of every DERIVE (log entry 12), and an illegal word
has none (log entry 11). -/
def Orderly (s : State) : Prop :=
  match s.inputs with
  | [] => True
  | i :: rest =>
    match i.event with
    | .command c =>
      Deliverable c = true ∧ (isDerive c.cw = true → window s.portView rest ≠ .sampled)
    | .reset => True
    | .sample => True
    | .readStateOut => s.mode = .ready

/-- The next step asserts the reset input: as the next event, or in the window of the DERIVE that it
accepts (R200). -/
def ResetTakesPlace (s : State) : Prop :=
  match s.inputs with
  | [] => False
  | i :: rest =>
    match i.event with
    | .reset => True
    | .command c =>
      (∃ instr, decode c = .ok instr) ∧
        ∃ seen rest', window s.portView rest = .abandoned seen rest'
    | .sample => False
    | .readStateOut => False

/-- The step gave the response `OK` (R66, R67). -/
def AnsweredOK (t : State) : Prop := ∃ payload, t.rsp = some { status := .ok, payload := payload }

/-- Commands presented, in this order, while a DERIVE has not responded (R87, R208). -/
def waiting (held : List Cmd) : List Input :=
  held.map fun c => { event := .command c, overlaps := true }

/-- EXTRACT as spec/70_reset_and_hazards.md R206 warns an implementer against: ES and FS share one
array, and each key word is written as soon as it is computed. The block does not do this (R144). -/
def extractInPlace (po shared : Words16) : Words16 :=
  (List.finRange 8).foldl
    (fun ws j => ws.set (4 + j.val) (po[xidx[j]] - ws[xidx[j]])) shared

/-- A step that neither faults nor refuses. -/
def Completes (s : State) : Prop := ∃ t, step s = .next t

end Sys2Proof.Machine
end

