-- ==== Sys2Proof/Certificates/Slice0/Obligations.lean ====
section
/-!
DEFINITION. The statements for the provers, from the numbered rules of spec/.
-/

open Sys2Proof Sys2Proof.Machine

/-! ## Encoding and decoding -/

/-- R61, R62, R65: no bit of an encoding is dropped. Decoding the message of a well-formed instruction
gives it back, with every operand at every value the encoding admits. -/
def Obligations.InstructionRoundTrip : Prop :=
  ∀ i : Instr, WellFormed i = true → decode (encode i) = .ok i

/-- R61, R63, R70: each message that decodes has one meaning and one spelling. It is the encoding of
the instruction read from it, and that instruction is well formed. -/
def Obligations.MessageRoundTrip : Prop :=
  ∀ (c : Cmd) (i : Instr), decode c = .ok i → encode i = c ∧ WellFormed i = true

/-- R70: among the messages the interface can carry, exactly those whose word passes the test with
the table's mask and match select DERIVE, whatever the operand fields hold. -/
def Obligations.MaskAndMatchSelectDerive : Prop :=
  ∀ c : Cmd, Deliverable c = true →
    ((∃ klen nlen key nonce, decode c = .ok (.derive klen nlen key nonce)) ↔
      c.cw &&& 0x0000feff = 0x00000001)

/-- R62: the operands of a decoded command are the command word's fields at their places, the key
buffer or ABSENT by `KP`, and the nonce buffer. -/
def Obligations.OperandsComeFromTheirFields : Prop :=
  ∀ (c : Cmd) (klen nlen : Byte) (key : Option (List Byte)) (nonce : List Byte),
    decode c = .ok (.derive klen nlen key nonce) →
      klen.toNat = c.cw.toNat / 2 ^ 16 % 2 ^ 8 ∧
      nlen.toNat = c.cw.toNat / 2 ^ 24 ∧
      key = (if c.cw.toNat / 2 ^ 8 % 2 = 1 then some c.keyBuf else none) ∧
      nonce = c.nonceBuf

/-- R65: a command word is `OP | KP<<8 | KLEN<<16 | NLEN<<24` (the four parts do not overlap, so it
is their sum), and the words of the lengths the source names are those of R65's table, as the
assembler of R73 makes them for any buffers of those lengths. -/
def Obligations.CommandWordsOfNamedLengths : Prop :=
  (∀ (kp : Bool) (klen nlen : Byte),
    (commandWord kp klen nlen).toNat =
      0x01 + 2 ^ 8 * kp.toNat + 2 ^ 16 * klen.toNat + 2 ^ 24 * nlen.toNat) ∧
  ∀ key nonce : List Byte,
    (key.length = 32 → nonce.length = 24 → (assembleDerive (some key) nonce).cw = 0x18200101) ∧
    (nonce.length = 24 → (assembleDerive none nonce).cw = 0x18000001) ∧
    (key.length = 0 → nonce.length = 24 → (assembleDerive (some key) nonce).cw = 0x18000101) ∧
    (key.length = 16 → nonce.length = 24 → (assembleDerive (some key) nonce).cw = 0x18100101) ∧
    (key.length = 33 → nonce.length = 24 → (assembleDerive (some key) nonce).cw = 0x18210101) ∧
    (key.length = 32 → nonce.length = 12 → (assembleDerive (some key) nonce).cw = 0x0c200101) ∧
    (key.length = 32 → nonce.length = 0 → (assembleDerive (some key) nonce).cw = 0x00200101)

/-- What the decoder reads from eight words. Of the three that decode, 0x18000001 is the word of
spec/95_test_vectors.md V-V2, and 0x02010101 and 0x00200001 are written from the fields of R61. The
five illegal ones are the words of V-E2 to V-E6. That the buffers are zeros, as long as each word
says, is `tableCmd`, the model's choice (log entry 6). -/
def Obligations.SampleWordsDecode : Prop :=
  decodeTableWord 32 0x18000001 = some (.derive 0 24 none (List.replicate 24 0)) ∧
  decodeTableWord 32 0x02010101 = some (.derive 1 2 (some [0]) [0, 0]) ∧
  decodeTableWord 32 0x00200001 = some (.derive 32 0 none []) ∧
  decodeTableWord 32 0x18200102 = none ∧
  decodeTableWord 32 0x18200100 = none ∧
  decodeTableWord 32 0x18200301 = none ∧
  decodeTableWord 32 0x18208101 = none ∧
  decodeTableWord 32 0x0c100102 = none

/-- R72: the length of a whole message is read from its command word alone. -/
def Obligations.MessageLengthFromWordAlone : Prop :=
  ∀ c : Cmd, Deliverable c = true →
    4 + c.keyBuf.length + c.nonceBuf.length =
      4 + (if c.cw.getLsbD 8 then (c.cw.extractLsb' 16 8).toNat else 0)
        + (c.cw.extractLsb' 24 8).toNat

/-- R64, R73, R82: a host with any key and any nonce, however long, gets the answer of their true
lengths, though the message presents a length of 255 for every longer one. -/
def Obligations.SaturatedLengthsAnswerAlike : Prop :=
  ∀ (key : Option (List Byte)) (nonce : List Byte) (s : State),
    ∃ i t klen nlen keyBuf nonceBuf,
      decode (assembleDerive key nonce) = .ok i ∧
      i = .derive klen nlen keyBuf nonceBuf ∧
      klen.toNat = min (key.getD []).length 255 ∧ nlen.toNat = min nonce.length 255 ∧
      exec i s = .next t ∧
      t.rsp.map (·.status) = some
        (if key.map List.length ≠ some 32 then .invalidKey
         else if nonce.length ≠ 24 then .invalidNonce
         else .ok)

/-! ## Bytes and words -/

/-- R43: byte `k` of the word at offset `off` is the buffer's byte `off + k`, lowest first. -/
def Obligations.WordsAreLittleEndian : Prop :=
  (∀ (n : Nat) (buf : Vector Byte n) (off : Nat) (h : off + 4 ≤ n),
    (le32 buf off h).toNat =
      buf[off].toNat + 2 ^ 8 * buf[off + 1].toNat + 2 ^ 16 * buf[off + 2].toNat
        + 2 ^ 24 * buf[off + 3].toNat) ∧
  le32 (#v[0x00, 0x01, 0x02, 0x03] : Vector Byte 4) 0 = 0x03020100

/-- R22: the sigma constants are the text "expand 32-byte k" packed with `le32`, and have the
values of R22's table. -/
def Obligations.SigmaIsThePackedText : Prop :=
  (∀ j : Fin 4, sigma[j] = le32 sigmaText (4 * j.val) (by omega)) ∧
  sigma = #v[0x61707865, 0x3320646e, 0x79622d32, 0x6b206574] ∧
  sigmaText.toList.map (fun b => Char.ofNat b.toNat) = "expand 32-byte k".toList

/-- R45: the 64-byte view of a state is the inverse of `le32`, byte `4*i + k` being bits
`[8k+7 : 8k]` of word `i`, and the last 8 bytes of a Final State's view are nonce bytes 16 to 23. -/
def Obligations.ByteViewInvertsPacking : Prop :=
  (∀ (ws : Words16) (i : Fin 16) (k : Fin 4),
    (byteView ws)[4 * i.val + k.val] = ws[i].extractLsb' (8 * k.val) 8) ∧
  (∀ (ws : Words16) (i : Fin 16), le32 (byteView ws) (4 * i.val) (by omega) = ws[i]) ∧
  (∀ (sk : Words8) (nonce : Nonce) (k : Fin 8),
    (byteView (assemble sk nonce))[56 + k.val] = nonce[16 + k.val])

/-- R42: a `MemRead` inside its buffer gives the bytes asked for; one that goes out of bounds faults
and gives none; and no instruction that a message can carry ever makes one. -/
def Obligations.NoReadOutOfBounds : Prop :=
  (∀ (buf : List Byte) (off n : Nat),
    (off + n ≤ buf.length →
      ∃ v : Vector Byte n, memRead buf off n = .ok v ∧
        ∀ j : Fin n, buf[off + j.val]? = some v[j]) ∧
    (buf.length < off + n → memRead buf off n = .error .memReadOutOfBounds)) ∧
  (∀ (i : Instr) (s : State), WellFormed i = true → exec i s ≠ .fault .memReadOutOfBounds)

/-! ## The phases -/

/-- R101 to R104: the words of the Engine State. -/
def Obligations.EngineStateLayout : Prop :=
  ∀ (key : Key) (nonce : Nonce),
    (∀ j : Fin 4, (layout key nonce)[j.val] = sigma[j]) ∧
    (∀ j : Fin 8, (layout key nonce)[4 + j.val] = le32 key (4 * j.val) (by omega)) ∧
    (layout key nonce)[12] = le32 nonce 0 ∧ (layout key nonce)[13] = le32 nonce 4 ∧
    (layout key nonce)[14] = le32 nonce 8 ∧ (layout key nonce)[15] = le32 nonce 12

/-- R105: the third nonce segment reaches neither ES nor the first 14 words of the Final State,
whatever the engine. -/
def Obligations.NonceTailOnlyInLastWords : Prop :=
  ∀ (permute : Words16 → Words16) (key : Key) (n₁ n₂ : Nonce),
    (∀ b : Fin 16, n₁[b.val] = n₂[b.val]) →
      layout key n₁ = layout key n₂ ∧
      ∀ j : Fin 14, (deriveFS permute key n₁)[j.val] = (deriveFS permute key n₂)[j.val]

/-- R140, R141: the subkey words are the differences at the indices 0, 5, 10, 15, 6, 7, 8, 9, in this
order, each modulo 2^32. -/
def Obligations.SubkeyWordsInFixedOrder : Prop :=
  ∀ po es : Words16, ∀ j : Fin 8,
    ((extract po es)[j] : Word).toNat =
      ((po[([0, 5, 10, 15, 6, 7, 8, 9] : List (Fin 16))[j.val]]).toNat + 2 ^ 32
        - (es[([0, 5, 10, 15, 6, 7, 8, 9] : List (Fin 16))[j.val]]).toNat) % 2 ^ 32

/-- R142: only the engine's words at the eight extraction indices matter. -/
def Obligations.OnlyEightEngineWordsMatter : Prop :=
  ∀ p q : Words16 → Words16,
    (∀ ws, ∀ k ∈ ([0, 5, 6, 7, 8, 9, 10, 15] : List (Fin 16)), (p ws)[k] = (q ws)[k]) →
      ∀ (key : Key) (nonce : Nonce), deriveFS p key nonce = deriveFS q key nonce

/-- R143: the subtraction can be undone exactly; and for every engine the key words of the Final
State are the engine's words minus the Engine State's, at the extraction indices. -/
def Obligations.SubtractionCanBeUndone : Prop :=
  (∀ (po es : Words16) (j : Fin 8), po[xidx[j]] = (extract po es)[j] + es[xidx[j]]) ∧
  (∀ (permute : Words16 → Words16) (key : Key) (nonce : Nonce) (j : Fin 8),
    (deriveFS permute key nonce)[4 + j.val] =
      (permute (layout key nonce))[xidx[j]] - (layout key nonce)[xidx[j]])

/-- R161: FS words 4 to 11 are the subkey in the order EXTRACT produced, and no other word holds
subkey material. -/
def Obligations.SubkeyFillsTheKeyWords : Prop :=
  (∀ (sk : Words8) (nonce : Nonce) (j : Fin 8), (assemble sk nonce)[4 + j.val] = sk[j]) ∧
  (∀ (sk₁ sk₂ : Words8) (nonce : Nonce) (k : Fin 16), k.val < 4 ∨ 11 < k.val →
    (assemble sk₁ nonce)[k] = (assemble sk₂ nonce)[k])

/-- R206: with ES and FS in one array and each key word written as it is computed, the word for
`SK[4]` is right exactly when the overwritten `ES[6]` happens to equal `SK[2]`, and the word for
`SK[6]` exactly when the word written for `SK[4]` happens to equal `ES[8]`; and for some engine
answer both are wrong. -/
def Obligations.SharedArrayBreaksTheSubkey : Prop :=
  (∀ po es : Words16,
    ((extractInPlace po es)[8] = (extract po es)[4] ↔ (extract po es)[2] = es[6]) ∧
    ((extractInPlace po es)[10] = (extract po es)[6] ↔ (extractInPlace po es)[8] = es[8])) ∧
  (∃ po es : Words16, (extractInPlace po es)[8] ≠ (extract po es)[4] ∧
    (extractInPlace po es)[10] ≠ (extract po es)[6])

/-- R24, R25, R123, R144: a phase that reads registers writes only its own. -/
def Obligations.PhasesWriteTheirOwnRegister : Prop :=
  (∀ (permute : Words16 → Words16) (s t : State), permutePhase permute s = .ok t →
    ∃ es, s.es = some es ∧ t = { s with
      po := some (permute es)
      exchanges := s.exchanges ++ [{ preq := { input := es, rounds := 20 }
                                     prsp := { out := permute es } }] }) ∧
  (∀ s t : State, extractPhase s = .ok t →
    ∃ po es, s.po = some po ∧ s.es = some es ∧ t = { s with sk := some (extract po es) })

/-- spec/95_test_vectors.md V-P1, V-X2 and V-X3 for every key and nonce: an engine that changes
nothing gives a zero subkey, one that adds its index gives the indices, and one that gives zeros
gives the negated Engine State words. -/
def Obligations.TestEnginesGiveTheirSubkeys : Prop :=
  ∀ (key : Key) (nonce : Nonce) (j : Fin 8),
    (deriveFS id key nonce)[4 + j.val] = 0 ∧
    (deriveFS (fun ws => Vector.ofFn fun k : Fin 16 => ws[k] + BitVec.ofNat 32 k.val)
      key nonce)[4 + j.val] = BitVec.ofNat 32 (xidx[j]).val ∧
    (deriveFS (fun _ => Vector.replicate 16 0) key nonce)[4 + j.val] = - (layout key nonce)[xidx[j]]

/-! ## The command DERIVE -/

/-- R80, R84, R121, R165: a DERIVE with a 32-byte key and a 24-byte nonce completes from every state.
It sends one request for 20 rounds with the Engine State, publishes the Final State computed from
the answer together with `mode = Ready`, answers `OK` with it, leaves no working value, and touches
nothing else. -/
def Obligations.DerivePublishesFinalState : Prop :=
  ∀ (key : Key) (nonce : Nonce) (s : State),
    let es := layout key nonce
    let po := Config.permute20 es
    let fs := assemble (extract po es) nonce
    exec (.derive 32 24 (some key.toList) nonce.toList) s = .next
      { mode := .ready
        fs := some fs
        es := none
        po := none
        sk := none
        inputs := s.inputs
        rsp := some { status := .ok, payload := some fs }
        exchanges := [{ preq := { input := es, rounds := 20 }, prsp := { out := po } }]
        sampled := [] }

/-- R181: a DERIVE whose key is absent, or whose key length is not 32, answers `INVALID_KEY` (code
`0x01`) from every state, whatever its other operands. Only the status code is recorded. -/
def Obligations.BadKeyAnswersInvalidKey : Prop :=
  (∀ (klen nlen : Byte) (key : Option (List Byte)) (nonce : List Byte) (s : State),
    key = none ∨ klen ≠ 32 →
      exec (.derive klen nlen key nonce) s = .next
        { s with
          rsp := some { status := .invalidKey, payload := none }
          exchanges := []
          sampled := [] }) ∧
  Status.invalidKey.code = 0x01

/-- R182: a DERIVE with a present 32-byte key whose nonce length is not 24 answers `INVALID_NONCE`
(code `0x02`) from every state. Only the status code is recorded. -/
def Obligations.BadNonceAnswersInvalidNonce : Prop :=
  (∀ (nlen : Byte) (keyBuf nonce : List Byte) (s : State),
    nlen ≠ 24 →
      exec (.derive 32 nlen (some keyBuf) nonce) s = .next
        { s with
          rsp := some { status := .invalidNonce, payload := none }
          exchanges := []
          sampled := [] }) ∧
  Status.invalidNonce.code = 0x02

/-- R83: when VALIDATE raises an error the DERIVE ends there, with no request, no register written,
and the same result whatever the bytes of the buffers are. -/
def Obligations.ErrorReadsAndWritesNothing : Prop :=
  ∀ (klen nlen : Byte) (key : Option (List Byte)) (nonce : List Byte) (s : State),
    key = none ∨ klen ≠ 32 ∨ nlen ≠ 24 →
      ∃ t, exec (.derive klen nlen key nonce) s = .next t ∧
        t.mode = s.mode ∧ t.fs = s.fs ∧ t.es = s.es ∧ t.po = s.po ∧ t.sk = s.sk ∧
        t.exchanges = [] ∧
        ∀ (key' : Option (List Byte)) (nonce' : List Byte), key'.isSome = key.isSome →
          exec (.derive klen nlen key' nonce') s = .next t

/-- R50, R81, and the frame of DERIVE: a completed DERIVE leaves what the outside does next as it
was, and either writes none of `mode`, FS, ES, PO and SK and gives no payload, or publishes FS and
`mode = Ready` together with the response that carries FS. There is no third case. -/
def Obligations.DeriveChangesAllOrNothing : Prop :=
  ∀ (i : Instr) (s t : State), exec i s = .next t →
    t.inputs = s.inputs ∧ t.sampled = [] ∧
    ((t.mode = s.mode ∧ t.fs = s.fs ∧ t.es = s.es ∧ t.po = s.po ∧ t.sk = s.sk ∧
        t.exchanges = [] ∧
        (t.rsp = some { status := .invalidKey, payload := none } ∨
          t.rsp = some { status := .invalidNonce, payload := none })) ∨
      ∃ fs, t.mode = .ready ∧ t.fs = some fs ∧ t.es = none ∧ t.po = none ∧ t.sk = none ∧
        t.exchanges.length = 1 ∧
        t.rsp = some { status := .ok, payload := some fs })

/-- R167: what every published Final State satisfies, for every key and nonce, from every state. -/
def Obligations.PublishedStateProperties : Prop :=
  ∀ (key : Key) (nonce : Nonce) (s : State),
    ∃ t fs, exec (.derive 32 24 (some key.toList) nonce.toList) s = .next t ∧ t.fs = some fs ∧
      fs[0] = 0x61707865 ∧ fs[1] = 0x3320646e ∧ fs[2] = 0x79622d32 ∧ fs[3] = 0x6b206574 ∧
      fs[12] = 0 ∧ fs[13] = 0 ∧
      fs[14] = le32 nonce 16 ∧ fs[15] = le32 nonce 20 ∧
      ∀ j : Fin 8,
        fs[4 + j.val] + (layout key nonce)[xidx[j]] =
          (Config.permute20 (layout key nonce))[xidx[j]]

/-- R188, R210: every instruction that a message can carry completes, from every state. -/
def Obligations.EveryCarriedDeriveCompletes : Prop :=
  ∀ (i : Instr) (s : State), WellFormed i = true → ∃ t, exec i s = .next t

/-- R48, R84, R186: a DERIVE's response, its use of the engine and the state it publishes do not
depend on the mode, on the old Final State or on anything else an earlier command left. -/
def Obligations.DeriveForgetsThePast : Prop :=
  ∀ (i : Instr) (s₁ s₂ t₁ : State), exec i s₁ = .next t₁ →
    ∃ t₂, exec i s₂ = .next t₂ ∧ t₂.rsp = t₁.rsp ∧ t₂.exchanges = t₁.exchanges ∧
      (AnsweredOK t₁ → t₂.mode = t₁.mode ∧ t₂.fs = t₁.fs)

/-- R42: on operands no message can carry, a DERIVE that passes VALIDATE with a buffer shorter than
its length field faults. -/
def Obligations.ShortBufferFaults : Prop :=
  ∀ (keyBuf nonce : List Byte) (s : State), keyBuf.length < 32 ∨ nonce.length < 24 →
    exec (.derive 32 24 (some keyBuf) nonce) s = .fault .memReadOutOfBounds

/-! ## The ports -/

/-- A step runs the decoded instruction: where the next event is a command that decodes and nothing
overlaps it, the step is that instruction's `exec` on the state with the command taken off the port.
Where its window is undisturbed, the step is `exec` on the state with the window's events taken off,
and its next state shows also what the samples in the window saw. There is no program counter to
move (R29). -/
def Obligations.StepRunsDecodedInstruction : Prop :=
  ∀ (s : State) (c : Cmd) (ov : Bool) (rest : List Input) (i : Instr),
    s.inputs = { event := .command c, overlaps := ov } :: rest → decode c = .ok i →
      ((∀ x ∈ rest.head?, x.overlaps = false) → step s = exec i { s with inputs := rest }) ∧
      ∀ (seen : List PortView) (rest' : List Input),
        window s.portView rest = .undisturbed seen rest' →
          step s = afterSeeing seen (exec i { s with inputs := rest' })

/-- The state the host builds with `withFetchWord` runs the instruction the decoder reads from the
word, on a state whose block and ports are the given one's. It rests on log entry 6. -/
def Obligations.PlacedWordRunsNext : Prop :=
  ∀ (s : State) (nbits w : Nat) (i : Instr), decodeTableWord nbits w = some i →
    step (s.withFetchWord nbits w) = exec i { s with inputs := afterwards s.inputs }

/-- R63: a message whose buffer lengths disagree with its command word is refused by name, and no
other message is. -/
def Obligations.WrongLengthsAreRefused : Prop :=
  ∀ (s : State) (c : Cmd) (ov : Bool) (rest : List Input),
    s.inputs = { event := .command c, overlaps := ov } :: rest →
      (step s = .refused .bufferLengthMismatch ↔
        ¬ (c.keyBuf.length = (if c.cw.getLsbD 8 then (c.cw.extractLsb' 16 8).toNat else 0) ∧
           c.nonceBuf.length = (c.cw.extractLsb' 24 8).toNat))

/-- R71: an illegal word is answered `ILLEGAL_COMMAND` with payload `none`: no buffer byte read, no
request, no state changed. -/
def Obligations.IllegalWordIsAnswered : Prop :=
  ∀ (s : State) (c : Cmd) (ov : Bool) (rest : List Input),
    s.inputs = { event := .command c, overlaps := ov } :: rest →
    Deliverable c = true → c.cw &&& 0x0000feff ≠ 0x00000001 →
    window s.portView rest = .undisturbed [] rest →
      step s = .next
        { s with
          inputs := rest
          rsp := some { status := .illegalCommand, payload := none }
          exchanges := []
          sampled := [] }

/-- The model's choice (log entry 11): an illegal word has no window. Whatever is marked as
overlapping it stays waiting and comes after the answer, which is the same as with nothing
waiting. -/
def Obligations.IllegalWordHasNoWindow : Prop :=
  ∀ (s : State) (c : Cmd) (ov : Bool) (rest : List Input),
    Deliverable c = true → c.cw &&& 0x0000feff ≠ 0x00000001 →
      ∃ t, step { s with inputs := [{ event := .command c, overlaps := ov }] } = .next t ∧
        step { s with inputs := { event := .command c, overlaps := ov } :: rest } =
          .next { t with inputs := rest }

/-- R184: a command reports one outcome, the first that applies of `ILLEGAL_COMMAND`, `INVALID_KEY`
and `INVALID_NONCE`, and `OK` where none does; with a payload exactly on `OK` (R66). -/
def Obligations.FirstErrorIsReported : Prop :=
  ∀ (s : State) (c : Cmd) (ov : Bool) (rest : List Input) (seen : List PortView)
    (rest' : List Input),
    s.inputs = { event := .command c, overlaps := ov } :: rest →
    Deliverable c = true → window s.portView rest = .undisturbed seen rest' →
      ∃ t r, step s = .next t ∧ (seen = [] → t.inputs = rest) ∧ t.rsp = some r ∧
        r.status =
          (if c.cw &&& 0x0000feff ≠ 0x00000001 then .illegalCommand
           else if c.cw.getLsbD 8 = false ∨ c.cw.extractLsb' 16 8 ≠ 32 then .invalidKey
           else if c.cw.extractLsb' 24 8 ≠ 24 then .invalidNonce
           else .ok) ∧
        (r.payload.isSome = true ↔ r.status = .ok)

/-- R66, R67: the status word has the code in bits 7:0 and zeros above; the four codes, and no code
from `0x04` on. -/
def Obligations.StatusWordLayout : Prop :=
  (∀ r : Rsp, r.statusWord.extractLsb' 0 8 = r.status.code ∧ r.statusWord.extractLsb' 8 24 = 0) ∧
  (∀ st : Status, st.code.toNat < 0x04) ∧
  Status.ok.code = 0x00 ∧ Status.invalidKey.code = 0x01 ∧ Status.invalidNonce.code = 0x02 ∧
  Status.illegalCommand.code = 0x03

/-- R121: exactly one request, for 20 rounds and with the Engine State, in a DERIVE that passes
VALIDATE; and no other step of any kind shows one. That a DERIVE abandoned by a reset shows none,
though hardware may have sent its request already, is deduced (log entry 13). -/
def Obligations.OneRequestPerGoodDerive : Prop :=
  (∀ (key : Key) (nonce : Nonce) (s : State),
    ∃ t, exec (.derive 32 24 (some key.toList) nonce.toList) s = .next t ∧
      t.exchanges.map (·.preq) = [{ input := layout key nonce, rounds := 20 }]) ∧
  (∀ s t : State, step s = .next t → t.exchanges ≠ [] →
    ∃ c ov rest key nonce,
      s.inputs = { event := .command c, overlaps := ov } :: rest ∧
      decode c = .ok (.derive 32 24 (some key) nonce) ∧
      ∃ seen rest', window s.portView rest = .undisturbed seen rest')

/-- R87: a command presented while a DERIVE is unanswered waits. The DERIVE runs as if alone, and the
commands stand in their order behind it. -/
def Obligations.OverlappingCommandsWait : Prop :=
  ∀ (s : State) (c : Cmd) (ov : Bool) (held : List Cmd) (later : List Input) (i : Instr),
    s.inputs = { event := .command c, overlaps := ov } :: (waiting held ++ later) →
    (∀ x ∈ later.head?, x.overlaps = false) → decode c = .ok i →
      step s = exec i { s with inputs := waiting held ++ later } ∧
      ∃ t, step s = .next t ∧ t.inputs = waiting held ++ later

/-- R188, R205: a sample of `state_out` between the acceptance of a DERIVE and its response is a fault,
however many commands wait before it: a read of `state_out`, or a SAMPLE while `ready = 1` (R73).
That the window of a DERIVE that fails counts too is deduced (log entry 12). -/
def Obligations.SampleDuringDeriveFaults : Prop :=
  ∀ (s : State) (c : Cmd) (ov : Bool) (held : List Cmd) (e : Event) (later : List Input) (i : Instr),
    s.inputs = { event := .command c, overlaps := ov } ::
      (waiting held ++ { event := e, overlaps := true } :: later) →
    e = .readStateOut ∨ (e = .sample ∧ s.mode = .ready) → decode c = .ok i →
      step s = .fault .sampledDuringDerive

/-- R50, R73, R81, R188: a SAMPLE between the acceptance of a DERIVE and its response, while
`ready = 0`, reads `ready` alone and is no fault. It sees the port of before the DERIVE, and the DERIVE
does what it does without it, the commands held off still waiting. -/
def Obligations.SampleBeforeKeyingSeesNotReady : Prop :=
  ∀ (s : State) (c : Cmd) (ov : Bool) (held : List Cmd) (later : List Input) (i : Instr),
    s.inputs = { event := .command c, overlaps := ov } ::
      (waiting held ++ { event := .sample, overlaps := true } :: later) →
    (∀ x ∈ later.head?, x.overlaps = false) → s.mode = .uninitialized → decode c = .ok i →
      ∃ t, exec i { s with inputs := waiting held ++ later } = .next t ∧
        step s = .next { t with sampled := [{ ready := false, stateOut := none }] }

/-- R200: the reset input puts the block in the reset state from every state. Asserted while a DERIVE
is unanswered, it abandons that DERIVE: no response, nothing published, no exchange left. The
commands held off stay on the port (log entry 5); that an abandoned DERIVE shows no exchange is
log entry 13. -/
def Obligations.ResetGivesTheResetState : Prop :=
  (∀ (s : State) (ov : Bool) (rest : List Input),
    s.inputs = { event := .reset, overlaps := ov } :: rest →
      step s = .next { State.reset with inputs := rest }) ∧
  (∀ (s : State) (c : Cmd) (ov : Bool) (held : List Cmd) (later : List Input) (i : Instr),
    s.inputs = { event := .command c, overlaps := ov } ::
      (waiting held ++ { event := .reset, overlaps := true } :: later) →
    decode c = .ok i →
      step s = .next { State.reset with inputs := waiting held ++ later })

/-- R33, R201: the state after reset. -/
def Obligations.ResetStateValues : Prop :=
  State.reset.mode = .uninitialized ∧ State.reset.fs = none ∧ State.reset.es = none ∧
  State.reset.po = none ∧ State.reset.sk = none ∧ State.reset.mode.readyLine = false ∧
  State.reset.stateOut = none

/-- R32: a read of a register that holds `none` is a fault: `state_out` while `ready = 0`, and ES, PO
or SK outside a DERIVE. No command of the block makes such a read. -/
def Obligations.ReadingNoneFaults : Prop :=
  (∀ (s : State) (ov : Bool) (rest : List Input),
    s.inputs = { event := .readStateOut, overlaps := ov } :: rest → s.mode = .uninitialized →
      step s = .fault (.readNone .fs)) ∧
  (∀ (permute : Words16 → Words16) (s : State), s.es = none →
    permutePhase permute s = .error (.readNone .es)) ∧
  (∀ s : State, s.po = none → extractPhase s = .error (.readNone .po)) ∧
  (∀ s : State, s.po.isSome = true → s.es = none → extractPhase s = .error (.readNone .es)) ∧
  (∀ (nonce : Nonce) (s : State), s.sk = none →
    assembleAndPublish nonce s = .error (.readNone .sk)) ∧
  (∀ (i : Instr) (s : State) (r : Reg), exec i s ≠ .fault (.readNone r))

/-- R28, R73: `SAMPLE` sees `ready`, and `state_out` exactly when `ready = 1`; a read of `state_out`
while `ready = 1` sees FS. SAMPLE never faults, nor does such a read where `mode` and FS agree, and
neither changes anything of the block or drops what waits. That SAMPLE completes also in the states
no run reaches where `mode` is Ready and FS holds `none` is deduced (log entry 19). -/
def Obligations.SampleShowsThePort : Prop :=
  (∀ (s : State) (ov : Bool) (rest : List Input),
    s.inputs = { event := .sample, overlaps := ov } :: rest →
      step s = .next
        { s with
          inputs := rest
          rsp := none
          exchanges := []
          sampled :=
            [{ ready := decide (s.mode = .ready)
               stateOut := if s.mode = .ready then s.fs else none }] }) ∧
  (∀ (s : State) (ov : Bool) (rest : List Input),
    s.inputs = { event := .readStateOut, overlaps := ov } :: rest → s.mode = .ready →
    ModeMatchesFS s →
      step s = .next
        { s with
          inputs := rest
          rsp := none
          exchanges := []
          sampled := [{ ready := true, stateOut := s.fs }] })

/-- The model's choice (log entry 4): with nothing waiting at the ports the block keeps its state,
and the ports fall quiet. -/
def Obligations.IdleBlockKeepsItsState : Prop :=
  ∀ s : State, s.inputs = [] →
    step s = .next { s with rsp := none, exchanges := [], sampled := [] }

/-! ## The whole machine -/

/-- R66, R166: after a step that answered `OK`, `mode = Ready` and the state output port shows the
new FS, which is the payload. -/
def Obligations.PublishedStateIsOnThePort : Prop :=
  ∀ (s t : State) (r : Rsp), step s = .next t → t.rsp = some r → r.status = .ok →
    t.mode = .ready ∧ t.fs.isSome = true ∧ t.stateOut = t.fs ∧ r.payload = t.fs

/-- R21, R26, R200: over every step of every kind, only an `OK` answer makes the block Ready or writes FS,
only a reset makes it Uninitialized or clears FS, and nothing else touches either. The `ready` line
encodes Ready as 1 and Uninitialized as 0. -/
def Obligations.ModeAndFSHaveTwoWriters : Prop :=
  (∀ s t : State, step s = .next t →
    (AnsweredOK t → t.mode = .ready ∧ t.fs.isSome = true) ∧
    (ResetTakesPlace s → t.mode = .uninitialized ∧ t.fs = none) ∧
    (¬ AnsweredOK t → ¬ ResetTakesPlace s → t.mode = s.mode ∧ t.fs = s.fs)) ∧
  Mode.readyLine .uninitialized = false ∧ Mode.readyLine .ready = true

/-- R30: no step reads what an earlier step carried on the ports, so no command reads an earlier
command's status. -/
def Obligations.NoStepReadsAnEarlierStatus : Prop :=
  ∀ (s : State) (rsp : Option Rsp) (exchanges : List Exchange) (sampled : List PortView),
    step { s with rsp := rsp, exchanges := exchanges, sampled := sampled } = step s

/-- R27: no step reads what an earlier DERIVE left in ES, PO or SK. From two states that differ only
there, a step that completes in one completes in the other with the same mode, Final State, response,
exchanges, sample and remaining inputs. -/
def Obligations.WorkingRegistersLeaveNoTrace : Prop :=
  ∀ (s t : State) (es po : Option Words16) (sk : Option Words8), step s = .next t →
    ∃ t', step { s with es := es, po := po, sk := sk } = .next t' ∧
      t'.mode = t.mode ∧ t'.fs = t.fs ∧ t'.inputs = t.inputs ∧ t'.rsp = t.rsp ∧
      t'.exchanges = t.exchanges ∧ t'.sampled = t.sampled

/-- R35, R27, R66, R68: the invariant holds at reset. -/
def Obligations.ResetMeetsInvariant : Prop := Inv State.reset

/-- R35, R27, R66, R68, R121, R193: every step keeps the invariant. `mode = Ready` exactly when FS
holds a value, that value is the Final State of some key and nonce, the working registers hold
`none`, the response agrees with the state, and the engine is asked once for 20 rounds or not at
all. That a DERIVE abandoned by a reset shows no exchange is deduced (log entry 13). -/
def Obligations.StepKeepsInvariant : Prop :=
  ∀ s t : State, Inv s → step s = .next t → Inv t

/-- R32, R63, R188, R205, R210: where `mode` and FS agree, the machine goes on exactly when the
agents outside keep their duties. The block itself never stops. That a step with nothing waiting
completes, and that an illegal word has no window, are the model's choices (log entries 4 and 11);
that the window is that of every DERIVE, one that fails included, is deduced (log entry 12). -/
def Obligations.MachineGoesOnIffOutsideIsOrderly : Prop :=
  ∀ s : State, ModeMatchesFS s → (Completes s ↔ Orderly s)

/-- R73: every `DERIVE` line of the syntax stands for a command that decodes to DERIVE with the line's
key, or ABSENT, and nonce. That of a buffer over 255 bytes the first 255 are sent is the model's
choice (log entry 8). -/
def Obligations.DeriveLinesAssembleToDerive : Prop :=
  ∀ (key : Option (List Byte)) (nonce : List Byte),
    ∃ c klen nlen nonceBuf,
      (AsmLine.derive key nonce).event = .command c ∧
      decode c = .ok (.derive klen nlen (key.map (·.take 255)) nonceBuf) ∧
      nonceBuf = nonce.take 255
end

