-- ==== Sys2Proof/Laws/Decode.lean ====
section
/-!
SUPPORT. The fields of an assembled command word, and what a successful decoding says.
-/

namespace Sys2Proof

theorem fieldOp_commandWord (kp : Bool) (klen nlen : Byte) :
    fieldOp (commandWord kp klen nlen) = opDerive := by
  ext i hi
  simp only [fieldOp, commandWord, BitVec.getElem_extractLsb', BitVec.getLsbD_or,
    BitVec.getLsbD_shiftLeft, BitVec.getLsbD_setWidth]
  interval_cases i <;> simp [opDerive]

theorem fieldKp_commandWord (kp : Bool) (klen nlen : Byte) :
    fieldKp (commandWord kp klen nlen) = kp := by
  simp [fieldKp, commandWord, opDerive]

theorem fieldRsv_commandWord (kp : Bool) (klen nlen : Byte) :
    fieldRsv (commandWord kp klen nlen) = 0 := by
  ext i hi
  simp only [fieldRsv, commandWord, BitVec.getElem_extractLsb', BitVec.getLsbD_or,
    BitVec.getLsbD_shiftLeft, BitVec.getLsbD_setWidth]
  interval_cases i <;> simp [opDerive]

theorem fieldKlen_commandWord (kp : Bool) (klen nlen : Byte) :
    fieldKlen (commandWord kp klen nlen) = klen := by
  ext i hi
  simp only [fieldKlen, commandWord, BitVec.getElem_extractLsb', BitVec.getLsbD_or,
    BitVec.getLsbD_shiftLeft, BitVec.getLsbD_setWidth]
  interval_cases i <;> simp [opDerive, BitVec.getLsbD_eq_getElem]

theorem fieldNlen_commandWord (kp : Bool) (klen nlen : Byte) :
    fieldNlen (commandWord kp klen nlen) = nlen := by
  ext i hi
  simp only [fieldNlen, commandWord, BitVec.getElem_extractLsb', BitVec.getLsbD_or,
    BitVec.getLsbD_shiftLeft, BitVec.getLsbD_setWidth]
  interval_cases i <;> simp [opDerive, BitVec.getLsbD_eq_getElem]

/-- A message that decodes is deliverable and its word is DERIVE's, with the operands of R62. -/
theorem decode_eq_ok {c : Cmd} {i : Instr} (h : decode c = .ok i) :
    Deliverable c = true ∧ isDerive c.cw = true ∧
      i = .derive (fieldKlen c.cw) (fieldNlen c.cw)
        (if fieldKp c.cw then some c.keyBuf else none) c.nonceBuf := by
  unfold decode at h
  split_ifs at h with hd hi <;> simp_all

theorem decode_eq_illegal_iff {c : Cmd} :
    decode c = .error .illegalCommand ↔ Deliverable c = true ∧ isDerive c.cw = false := by
  unfold decode
  split_ifs <;> simp_all

theorem decode_eq_bufferLengths_iff {c : Cmd} :
    decode c = .error .bufferLengths ↔ Deliverable c = false := by
  unfold decode
  split_ifs <;> simp_all

end Sys2Proof
end

