-- ==== Sys2Proof/Laws/Operands.lean ====
section
/-!
SUPPORT. What reading the operands of a command can do: `memRead` inside and beyond its buffer, the
four bytes of an `le32` word, and the three answers of VALIDATE.
-/

namespace Sys2Proof.Machine

/-- Inside the buffer a `MemRead` gives the bytes asked for, in order. -/
theorem memRead_of_le {buf : List Byte} {off n : Nat} (h : off + n ≤ buf.length) :
    memRead buf off n = .ok (Vector.ofFn fun i : Fin n => buf[off + i.val]) :=
  dif_pos h

/-- Beyond the end of the buffer it faults. -/
theorem memRead_of_lt {buf : List Byte} {off n : Nat} (h : buf.length < off + n) :
    memRead buf off n = .error .memReadOutOfBounds :=
  dif_neg (by omega)

/-- A buffer read whole is the buffer. -/
theorem memRead_toList {n : Nat} (v : Vector Byte n) : memRead v.toList 0 n = .ok v := by
  rw [memRead_of_le (by simp)]
  congr 1
  ext i hi
  simp

/-- A buffer of the right length is a vector of that length, so a statement over vectors speaks of
every buffer of that length. -/
theorem exists_toList {n : Nat} {buf : List Byte} (h : buf.length = n) :
    ∃ v : Vector Byte n, v.toList = buf := by
  subst h
  exact ⟨⟨buf.toArray, by simp⟩, by simp [Vector.toList]⟩

/-- Byte `k` of a little-endian word is the byte at offset `off + k` of its buffer. -/
theorem le32_byte {n : Nat} (buf : Vector Byte n) (off : Nat) (h : off + 4 ≤ n) (k : Fin 4) :
    (le32 buf off h).extractLsb' (8 * k.val) 8 = buf[off + k.val] := by
  match k with
  | 0 | 1 | 2 | 3 =>
    ext i hi
    simp only [le32, BitVec.getElem_extractLsb', BitVec.getLsbD_or, BitVec.getLsbD_shiftLeft,
      BitVec.getLsbD_setWidth]
    interval_cases i <;> simp [BitVec.getLsbD_eq_getElem]

/-- VALIDATE passes exactly on a present key of 32 bytes and a nonce of 24. -/
theorem validate_eq_none_iff {kp : Bool} {klen nlen : Byte} :
    validate kp klen nlen = none ↔ kp = true ∧ klen = 32 ∧ nlen = 24 := by
  unfold validate keyBytes nonceBytes
  split_ifs <;> simp_all

/-- VALIDATE answers `INVALID_KEY` exactly on an absent or wrong-length key. -/
theorem validate_eq_invalidKey_iff {kp : Bool} {klen nlen : Byte} :
    validate kp klen nlen = some .invalidKey ↔ kp = false ∨ klen ≠ 32 := by
  unfold validate keyBytes nonceBytes
  split_ifs <;> simp_all

/-- VALIDATE answers `INVALID_NONCE` exactly on a good key with a wrong-length nonce. -/
theorem validate_eq_invalidNonce_iff {kp : Bool} {klen nlen : Byte} :
    validate kp klen nlen = some .invalidNonce ↔ kp = true ∧ klen = 32 ∧ nlen ≠ 24 := by
  unfold validate keyBytes nonceBytes
  split_ifs <;> simp_all

/-- VALIDATE has no other answer. -/
theorem validate_cases (kp : Bool) (klen nlen : Byte) :
    validate kp klen nlen = none ∨ validate kp klen nlen = some .invalidKey ∨
      validate kp klen nlen = some .invalidNonce := by
  unfold validate
  split_ifs <;> simp

end Sys2Proof.Machine
end

