-- ==== Sys2Proof/Laws/State.lean ====
section
/-!
SUPPORT. One lemma per field per update of the state, so that no later proof unfolds a record
update.
-/

namespace Sys2Proof.Machine

variable (s : State)

section Drive

variable (r : Option Rsp) (xs : List Exchange) (v : List PortView)

@[simp] theorem State.drive_mode : (s.drive r xs v).mode = s.mode := rfl
@[simp] theorem State.drive_fs : (s.drive r xs v).fs = s.fs := rfl
@[simp] theorem State.drive_es : (s.drive r xs v).es = s.es := rfl
@[simp] theorem State.drive_po : (s.drive r xs v).po = s.po := rfl
@[simp] theorem State.drive_sk : (s.drive r xs v).sk = s.sk := rfl
@[simp] theorem State.drive_inputs : (s.drive r xs v).inputs = s.inputs := rfl
@[simp] theorem State.drive_rsp : (s.drive r xs v).rsp = r := rfl
@[simp] theorem State.drive_exchanges : (s.drive r xs v).exchanges = xs := rfl
@[simp] theorem State.drive_sampled : (s.drive r xs v).sampled = v := rfl

/-- Of two drives only the later one shows. -/
@[simp] theorem State.drive_drive (r' : Option Rsp) (xs' : List Exchange) (v' : List PortView) :
    (s.drive r' xs' v').drive r xs v = s.drive r xs v := rfl

end Drive

@[simp] theorem State.quiet_mode : s.quiet.mode = s.mode := rfl
@[simp] theorem State.quiet_fs : s.quiet.fs = s.fs := rfl
@[simp] theorem State.quiet_es : s.quiet.es = s.es := rfl
@[simp] theorem State.quiet_po : s.quiet.po = s.po := rfl
@[simp] theorem State.quiet_sk : s.quiet.sk = s.sk := rfl
@[simp] theorem State.quiet_inputs : s.quiet.inputs = s.inputs := rfl
@[simp] theorem State.quiet_rsp : s.quiet.rsp = none := rfl
@[simp] theorem State.quiet_exchanges : s.quiet.exchanges = [] := rfl
@[simp] theorem State.quiet_sampled : s.quiet.sampled = [] := rfl

section Raise

variable (e : Status)

@[simp] theorem State.raise_mode : (s.raise e).mode = s.mode := rfl
@[simp] theorem State.raise_fs : (s.raise e).fs = s.fs := rfl
@[simp] theorem State.raise_es : (s.raise e).es = s.es := rfl
@[simp] theorem State.raise_po : (s.raise e).po = s.po := rfl
@[simp] theorem State.raise_sk : (s.raise e).sk = s.sk := rfl
@[simp] theorem State.raise_inputs : (s.raise e).inputs = s.inputs := rfl
@[simp] theorem State.raise_rsp : (s.raise e).rsp = some { status := e, payload := none } := rfl
@[simp] theorem State.raise_exchanges : (s.raise e).exchanges = [] := rfl
@[simp] theorem State.raise_sampled : (s.raise e).sampled = [] := rfl

end Raise

section Publish

variable (fs : Words16)

@[simp] theorem State.publish_mode : (s.publish fs).mode = .ready := rfl
@[simp] theorem State.publish_fs : (s.publish fs).fs = some fs := rfl
@[simp] theorem State.publish_es : (s.publish fs).es = none := rfl
@[simp] theorem State.publish_po : (s.publish fs).po = none := rfl
@[simp] theorem State.publish_sk : (s.publish fs).sk = none := rfl
@[simp] theorem State.publish_inputs : (s.publish fs).inputs = s.inputs := rfl
@[simp] theorem State.publish_rsp :
    (s.publish fs).rsp = some { status := .ok, payload := some fs } := rfl
@[simp] theorem State.publish_exchanges : (s.publish fs).exchanges = s.exchanges := rfl
@[simp] theorem State.publish_sampled : (s.publish fs).sampled = s.sampled := rfl

end Publish

@[simp] theorem State.applyReset_mode : s.applyReset.mode = .uninitialized := rfl
@[simp] theorem State.applyReset_fs : s.applyReset.fs = none := rfl
@[simp] theorem State.applyReset_es : s.applyReset.es = none := rfl
@[simp] theorem State.applyReset_po : s.applyReset.po = none := rfl
@[simp] theorem State.applyReset_sk : s.applyReset.sk = none := rfl
@[simp] theorem State.applyReset_inputs : s.applyReset.inputs = s.inputs := rfl
@[simp] theorem State.applyReset_rsp : s.applyReset.rsp = none := rfl
@[simp] theorem State.applyReset_exchanges : s.applyReset.exchanges = [] := rfl
@[simp] theorem State.applyReset_sampled : s.applyReset.sampled = [] := rfl

section SeenFirst

variable (seen : List PortView)

@[simp] theorem State.seenFirst_mode : (s.seenFirst seen).mode = s.mode := rfl
@[simp] theorem State.seenFirst_fs : (s.seenFirst seen).fs = s.fs := rfl
@[simp] theorem State.seenFirst_es : (s.seenFirst seen).es = s.es := rfl
@[simp] theorem State.seenFirst_po : (s.seenFirst seen).po = s.po := rfl
@[simp] theorem State.seenFirst_sk : (s.seenFirst seen).sk = s.sk := rfl
@[simp] theorem State.seenFirst_inputs : (s.seenFirst seen).inputs = s.inputs := rfl
@[simp] theorem State.seenFirst_rsp : (s.seenFirst seen).rsp = s.rsp := rfl
@[simp] theorem State.seenFirst_exchanges : (s.seenFirst seen).exchanges = s.exchanges := rfl
@[simp] theorem State.seenFirst_sampled : (s.seenFirst seen).sampled = seen ++ s.sampled := rfl

/-- Nothing seen changes nothing. -/
@[simp] theorem State.seenFirst_nil : s.seenFirst [] = s := rfl

end SeenFirst

section Layout

variable (key : Key) (nonce : Nonce)

@[simp] theorem layoutPhase_mode : (layoutPhase key nonce s).mode = s.mode := rfl
@[simp] theorem layoutPhase_fs : (layoutPhase key nonce s).fs = s.fs := rfl
@[simp] theorem layoutPhase_es : (layoutPhase key nonce s).es = some (layout key nonce) := rfl
@[simp] theorem layoutPhase_po : (layoutPhase key nonce s).po = s.po := rfl
@[simp] theorem layoutPhase_sk : (layoutPhase key nonce s).sk = s.sk := rfl
@[simp] theorem layoutPhase_inputs : (layoutPhase key nonce s).inputs = s.inputs := rfl
@[simp] theorem layoutPhase_rsp : (layoutPhase key nonce s).rsp = s.rsp := rfl
@[simp] theorem layoutPhase_exchanges : (layoutPhase key nonce s).exchanges = s.exchanges := rfl
@[simp] theorem layoutPhase_sampled : (layoutPhase key nonce s).sampled = s.sampled := rfl

end Layout

end Sys2Proof.Machine
end

