-- ==== Sys2Proof/Laws/Ops.lean ====
section
/-!
SUPPORT. What the shared operations over the state can do: register reads, the outcome of a
computation that may fault, and the view of the state output port.
-/

namespace Sys2Proof.Machine

/-- A register that holds a value reads as it. -/
@[simp] theorem readReg_some {α : Type} (r : Reg) (v : α) : readReg r (some v) = .ok v := rfl

/-- A register that holds `none` faults. -/
@[simp] theorem readReg_none {α : Type} (r : Reg) :
    readReg r (none : Option α) = .error (.readNone r) := rfl

@[simp] theorem toOutcome_ok (s : State) : toOutcome (.ok s) = .next s := rfl

@[simp] theorem toOutcome_error (f : Fault) : toOutcome (.error f) = .fault f := rfl

/-- A next state is the computation's own. -/
theorem toOutcome_eq_next {r : Except Fault State} {t : State} (h : toOutcome r = .next t) :
    r = .ok t := by
  cases r with
  | ok s => exact congrArg _ (Host.Outcome.next.inj h)
  | error f => cases h

/-- While Ready the port shows FS. -/
theorem stateOut_ready {s : State} (h : s.mode = .ready) : s.stateOut = s.fs := by
  simp [State.stateOut, h, Mode.readyLine]

/-- While Uninitialized the port shows `none`. -/
theorem stateOut_uninitialized {s : State} (h : s.mode = .uninitialized) : s.stateOut = none := by
  simp [State.stateOut, h, Mode.readyLine]

end Sys2Proof.Machine
end

