-- ==== Sys2Proof/Laws/Derive.lean ====
section
/-!
SUPPORT. What DERIVE can do: the phases once for all, and the cases of the command.
-/

namespace Sys2Proof.Machine

/-- The state after a DERIVE that succeeds. -/
abbrev State.derived (permute : Words16 → Words16) (key : Key) (nonce : Nonce) (s : State) : State :=
  (s.drive none [askEngine permute (layout key nonce)] []).publish (deriveFS permute key nonce)

/-- Once the snapshot is read the phases succeed, and together they are `deriveFS`, published. -/
theorem computePhases_of_memRead {permute : Words16 → Words16} {keyBuf nonceBuf : List Byte}
    {key : Key} {nonce : Nonce} (hk : memRead keyBuf 0 32 = .ok key)
    (hn : memRead nonceBuf 0 24 = .ok nonce) (s : State) :
    computePhases permute keyBuf nonceBuf s = .ok (s.derived permute key nonce) := by
  unfold computePhases
  rw [hk, hn]
  rfl

/-- On a key and a nonce of the accepted lengths DERIVE publishes their Final State. -/
theorem deriveWith_ok (permute : Words16 → Words16) (key : Key) (nonce : Nonce) (s : State) :
    deriveWith permute 32 24 (some key.toList) nonce.toList s =
      .next (s.derived permute key nonce) := by
  have hv : validate (some key.toList).isSome 32 24 = none := validate_eq_none_iff.2 ⟨rfl, rfl, rfl⟩
  unfold deriveWith
  rw [hv]
  show toOutcome (computePhases permute key.toList nonce.toList s) = _
  rw [computePhases_of_memRead (memRead_toList key) (memRead_toList nonce)]
  rfl

/-- Where VALIDATE raises an error, that is the whole of the command. -/
theorem deriveWith_error {permute : Words16 → Words16} {klen nlen : Byte} {e : Status}
    {key : Option (List Byte)} {nonce : List Byte} (h : validate key.isSome klen nlen = some e)
    (s : State) : deriveWith permute klen nlen key nonce s = .next (s.raise e) := by
  unfold deriveWith
  rw [h]

/-- Whatever the operands, a DERIVE that completes has raised one of VALIDATE's errors or has
published the Final State of the bytes it read. -/
theorem deriveWith_next {permute : Words16 → Words16} {klen nlen : Byte}
    {key : Option (List Byte)} {nonce : List Byte} {s t : State}
    (h : deriveWith permute klen nlen key nonce s = .next t) :
    (∃ e, validate key.isSome klen nlen = some e ∧ t = s.raise e) ∨
      ∃ k n, validate key.isSome klen nlen = none ∧ memRead (key.getD []) 0 32 = .ok k ∧
        memRead nonce 0 24 = .ok n ∧ t = s.derived permute k n := by
  unfold deriveWith at h
  cases hv : validate key.isSome klen nlen with
  | some e =>
    rw [hv] at h
    exact .inl ⟨e, rfl, (Host.Outcome.next.inj h).symm⟩
  | none =>
    rw [hv] at h
    have h := toOutcome_eq_next h
    cases hk : memRead (key.getD []) 0 32 with
    | error f => simp [computePhases, hk, bind, Except.bind] at h
    | ok k =>
      cases hn : memRead nonce 0 24 with
      | error f => simp [computePhases, hk, hn, bind, Except.bind] at h
      | ok n =>
        rw [computePhases_of_memRead hk hn] at h
        exact .inr ⟨k, n, rfl, rfl, rfl, (Except.ok.inj h).symm⟩

/-- A DERIVE stops only where a buffer is shorter than its length field says. -/
theorem deriveWith_fault {permute : Words16 → Words16} {klen nlen : Byte}
    {key : Option (List Byte)} {nonce : List Byte} {s : State} {f : Fault}
    (h : deriveWith permute klen nlen key nonce s = .fault f) :
    f = .memReadOutOfBounds ∧ ((key.getD []).length < 32 ∨ nonce.length < 24) := by
  unfold deriveWith at h
  cases hv : validate key.isSome klen nlen with
  | some e => rw [hv] at h; cases h
  | none =>
    rw [hv] at h
    by_cases hk : 0 + 32 ≤ (key.getD []).length
    · by_cases hn : 0 + 24 ≤ nonce.length
      · rw [computePhases_of_memRead (memRead_of_le hk) (memRead_of_le hn)] at h
        cases h
      · have e : computePhases permute (key.getD []) nonce s = .error .memReadOutOfBounds := by
          simp [computePhases, memRead_of_le hk, memRead_of_lt (not_le.1 hn), bind, Except.bind]
        rw [e] at h
        cases h
        exact ⟨rfl, .inr (by omega)⟩
    · have e : computePhases permute (key.getD []) nonce s = .error .memReadOutOfBounds := by
        simp [computePhases, memRead_of_lt (not_le.1 hk), bind, Except.bind]
      rw [e] at h
      cases h
      exact ⟨rfl, .inl (by omega)⟩

/-- A DERIVE is never refused. -/
theorem deriveWith_not_refused {permute : Words16 → Words16} {klen nlen : Byte}
    {key : Option (List Byte)} {nonce : List Byte} {s : State} {r : Refusal} :
    deriveWith permute klen nlen key nonce s ≠ .refused r := by
  unfold deriveWith
  split
  · exact nofun
  · cases computePhases permute (key.getD []) nonce s <;> exact nofun

/-- The one instruction is DERIVE with the attached engine. -/
theorem exec_derive (klen nlen : Byte) (key : Option (List Byte)) (nonce : List Byte) (s : State) :
    exec (.derive klen nlen key nonce) s =
      deriveWith Config.permute20 klen nlen key nonce s := rfl

end Sys2Proof.Machine
end

