-- ==== Sys2Proof/Laws/PerInstr.lean ====
section
/-!
SUPPORT. Facts about every instruction as syntax, one lemma per constructor.
-/

namespace Sys2Proof

/-- The encoder announces exactly the buffers it sends, for every well-formed instruction
(spec/30_encoding.md R63). -/
def Laws.EncodeIsDeliverable.Statement (i : Instr) : Prop :=
  WellFormed i = true → Deliverable (encode i) = true

theorem Laws.EncodeIsDeliverable.derive (klen nlen : Byte) (key : Option (List Byte))
    (nonce : List Byte) :
    Laws.EncodeIsDeliverable.Statement (.derive klen nlen key nonce) := by
  unfold Laws.EncodeIsDeliverable.Statement
  intro h
  cases key <;>
    simp_all [WellFormed, keyFits, nonceFits, Deliverable, encode, keyLength, nonceLength,
      fieldKp_commandWord, fieldKlen_commandWord, fieldNlen_commandWord]

end Sys2Proof
end

