-- ==== Sys2Proof/Laws/Ports.lean ====
section
/-!
SUPPORT. What can overlap a DERIVE, and what one step can do.
-/

namespace Sys2Proof.Machine

section Windows

variable (view : PortView) (rest : List Input)

/-- Commands in a window only wait. -/
theorem window_command (c : Cmd) :
    window view ({ event := .command c, overlaps := true } :: rest) =
      (window view rest).hold { event := .command c, overlaps := true } := rfl

/-- A SAMPLE in a window sees the port while `ready = 0`, and disturbs nothing. -/
theorem window_sample (h : view.ready = false) :
    window view ({ event := .sample, overlaps := true } :: rest) = (window view rest).see view := by
  simp [window, h]

/-- A SAMPLE in a window while `ready = 1` is a sample of `state_out`. -/
theorem window_sample_ready (h : view.ready = true) :
    window view ({ event := .sample, overlaps := true } :: rest) = .sampled := by
  simp [window, h]

/-- A read of `state_out` in a window. -/
theorem window_readStateOut :
    window view ({ event := .readStateOut, overlaps := true } :: rest) = .sampled := rfl

/-- The reset input in a window. -/
theorem window_reset :
    window view ({ event := .reset, overlaps := true } :: rest) = .abandoned [] rest := rfl

/-- What comes after the response is no part of the window. -/
theorem window_of_later (h : ∀ x ∈ rest.head?, x.overlaps = false) :
    window view rest = .undisturbed [] rest := by
  cases rest with
  | nil => rfl
  | cons i rest => simp [window, h i rfl]

/-- Commands held off change what the rest of the window does in nothing but that they wait on. -/
theorem window_waiting (held : List Cmd) (later : List Input) :
    window view (waiting held ++ later) =
      match window view later with
      | .undisturbed seen rest => .undisturbed seen (waiting held ++ rest)
      | .abandoned seen rest => .abandoned seen (waiting held ++ rest)
      | .sampled => .sampled := by
  induction held with
  | nil =>
    show window view later = _
    cases window view later <;> rfl
  | cons c held ih =>
    show window view ({ event := .command c, overlaps := true } :: (waiting held ++ later)) = _
    rw [window_command, ih]
    cases window view later <;> rfl

/-- Nothing overlaps a command presented before inputs that come afterwards. -/
theorem window_afterwards (inputs : List Input) :
    window view (afterwards inputs) = .undisturbed [] (afterwards inputs) := by
  refine window_of_later view _ ?_
  cases inputs with
  | nil => exact nofun
  | cons i rest => by_cases h : i.overlaps <;> simp [afterwards, h]

end Windows

/-- Where nothing was seen before it, the outcome is the instruction's own. -/
@[simp] theorem afterSeeing_nil (o : Host.Outcome State Fault Refusal) : afterSeeing [] o = o := by
  cases o <;> rfl

@[simp] theorem afterSeeing_next (seen : List PortView) (t : State) :
    afterSeeing seen (.next t) = .next (t.seenFirst seen) := rfl

/-- What was seen neither adds nor hides a next state. -/
theorem afterSeeing_eq_next {seen : List PortView} {o : Host.Outcome State Fault Refusal} {t : State}
    (h : afterSeeing seen o = .next t) : ∃ t', o = .next t' ∧ t = t'.seenFirst seen := by
  cases o with
  | next t' => exact ⟨t', rfl, (Host.Outcome.next.inj h).symm⟩
  | fault f => cases h
  | refused r => cases h

section Turns

variable {s : State} {i : Input} {rest : List Input}

/-- With nothing waiting the ports fall quiet. -/
theorem step_idle (h : s.inputs = []) : step s = .next s.quiet := by
  simp only [step, State.turn, h]

/-- The reset input. -/
theorem step_reset (h : s.inputs = i :: rest) (he : i.event = .reset) :
    step s = .next { s with inputs := rest }.applyReset := by
  simp only [step, State.turn, h, he]

/-- `SAMPLE`. -/
theorem step_sample (h : s.inputs = i :: rest) (he : i.event = .sample) :
    step s = .next ({ s with inputs := rest }.drive none [] [s.portView]) := by
  simp only [step, State.turn, h, he]
  rfl

/-- A read of `state_out`. -/
theorem step_read (h : s.inputs = i :: rest) (he : i.event = .readStateOut) :
    step s = { s with inputs := rest }.doRead := by
  simp only [step, State.turn, h, he]

/-- A command goes to the command port. -/
theorem step_command {c : Cmd} (h : s.inputs = i :: rest) (he : i.event = .command c) :
    step s = match { s with inputs := rest }.accept c with
      | .settled o => o
      | .run instr s' seen => afterSeeing seen (exec instr s') := by
  have ht : s.turn = { s with inputs := rest }.accept c := by simp only [State.turn, h, he]
  exact congrArg (fun t : Turn => match t with
    | .settled o => o
    | .run instr s' seen => afterSeeing seen (exec instr s')) ht

end Turns

/-- A step that completes: idle, reset, a sample, an answer to an illegal word, an abandoned DERIVE,
or a decoded instruction that ran, the last two after what the samples in the window saw. -/
theorem step_next {s t : State} (h : step s = .next t) :
    (s.inputs = [] ∧ t = s.quiet) ∨
    ∃ i rest, s.inputs = i :: rest ∧
      ((i.event = .reset ∧ t = { s with inputs := rest }.applyReset) ∨
       ((i.event = .sample ∨ i.event = .readStateOut) ∧
         t = { s with inputs := rest }.drive none [] [s.portView]) ∨
       ∃ c, i.event = .command c ∧
        ((decode c = .error .illegalCommand ∧ t = { s with inputs := rest }.raise .illegalCommand) ∨
         ∃ instr, decode c = .ok instr ∧
          ∃ seen rest',
            (window s.portView rest = .abandoned seen rest' ∧
              t = { s with inputs := rest' }.applyReset.seenFirst seen) ∨
            (window s.portView rest = .undisturbed seen rest' ∧
              ∃ t', exec instr { s with inputs := rest' } = .next t' ∧ t = t'.seenFirst seen))) := by
  unfold step State.turn at h
  cases hi : s.inputs with
  | nil =>
    rw [hi] at h
    exact .inl ⟨rfl, (Host.Outcome.next.inj h).symm⟩
  | cons i rest =>
    rw [hi] at h
    refine .inr ⟨i, rest, rfl, ?_⟩
    cases he : i.event with
    | reset =>
      simp only [he] at h
      exact .inl ⟨rfl, (Host.Outcome.next.inj h).symm⟩
    | sample =>
      simp only [he] at h
      exact .inr (.inl ⟨.inl rfl, (Host.Outcome.next.inj h).symm⟩)
    | readStateOut =>
      simp only [he, State.doRead] at h
      refine .inr (.inl ⟨.inr rfl, ?_⟩)
      split at h
      · exact (Host.Outcome.next.inj h).symm
      · cases h
    | command c =>
      simp only [he, State.accept] at h
      refine .inr (.inr ⟨c, rfl, ?_⟩)
      cases hd : decode c with
      | error e =>
        cases e with
        | bufferLengths => simp only [hd] at h; cases h
        | illegalCommand =>
          simp only [hd] at h
          exact .inl ⟨rfl, (Host.Outcome.next.inj h).symm⟩
      | ok instr =>
        simp only [hd] at h
        refine .inr ⟨instr, rfl, ?_⟩
        have hv : ({ s with inputs := rest } : State).portView = s.portView := rfl
        rw [hv] at h
        cases hw : window s.portView rest with
        | undisturbed seen rest' =>
          simp only [hw] at h
          exact ⟨seen, rest', .inr ⟨rfl, afterSeeing_eq_next h⟩⟩
        | abandoned seen rest' =>
          simp only [hw] at h
          exact ⟨seen, rest', .inl ⟨rfl, (Host.Outcome.next.inj h).symm⟩⟩
        | sampled => simp only [hw] at h; cases h

end Sys2Proof.Machine
end

