-- ==== Sys2Proof/Tests/Slice0.lean ====
section
/-!
SUPPORT. Tests of the model on values of spec/95_test_vectors.md, and for each statement of
Certificates/Slice0/Obligations.lean with hypotheses a witness that meets them together.
-/

namespace Sys2Proof.Tests

open Sys2Proof.Machine

/-- The key K = `00 01 … 1f` (spec/95_test_vectors.md). -/
def keyK : Key := Vector.ofFn fun i : Fin 32 => BitVec.ofNat 8 i.val

/-- The nonce N = `00 01 … 17` (spec/95_test_vectors.md). -/
def nonceN : Nonce := Vector.ofFn fun i : Fin 24 => BitVec.ofNat 8 i.val

/-- `DERIVE key=K, nonce=N`. -/
def deriveKN : Cmd := assembleDerive (some keyK.toList) nonceN.toList

/-- The instruction of `deriveKN`. -/
def instrKN : Instr := .derive 32 24 (some keyK.toList) nonceN.toList

/-- From reset, these events in order, the marked ones overlapping the DERIVE before them. -/
def waitingFor (inputs : List (Event × Bool)) : State :=
  { State.reset with inputs := inputs.map fun p => { event := p.1, overlaps := p.2 } }

/-- A block that is Ready with some Final State. -/
def readyState : State :=
  { State.reset with mode := .ready, fs := some (Vector.replicate 16 7) }

/-! ## Well-formed instructions: an ill-formed term for each check -/

theorem test_good_instruction_is_wellFormed : WellFormed instrKN = true := by decide

theorem test_short_key_is_illFormed :
    WellFormed (.derive 32 24 (some (List.replicate 31 0)) (List.replicate 24 0)) = false := by
  decide

theorem test_long_nonce_is_illFormed :
    WellFormed (.derive 32 24 none (List.replicate 25 0)) = false := by decide

/-! ## Decoding words written out from R61's fields: NLEN, KLEN, RSV, KP, OP -/

theorem test_decode_derive :
    decode { cw := 0b00000010#8 ++ 0b00000011#8 ++ 0b0000000#7 ++ 0b1#1 ++ 0b00000001#8
             keyBuf := [0xaa, 0xbb, 0xcc], nonceBuf := [0x11, 0x22] } =
      .ok (.derive 3 2 (some [0xaa, 0xbb, 0xcc]) [0x11, 0x22]) := by decide

theorem test_decode_absent_key_ignores_klen :
    decode { cw := 0b00000001#8 ++ 0b00100000#8 ++ 0b0000000#7 ++ 0b0#1 ++ 0b00000001#8
             keyBuf := [], nonceBuf := [0x11] } =
      .ok (.derive 32 1 none [0x11]) := by decide

/-- V-E4 and V-E2 with empty buffers: a reserved bit, and another opcode. -/
theorem test_decode_illegal_words :
    decode { cw := 0b00000000#8 ++ 0b00000000#8 ++ 0b0000001#7 ++ 0b0#1 ++ 0b00000001#8
             keyBuf := [], nonceBuf := [] } = .error .illegalCommand ∧
    decode { cw := 0b00000000#8 ++ 0b00000000#8 ++ 0b0000000#7 ++ 0b0#1 ++ 0b00000010#8
             keyBuf := [], nonceBuf := [] } = .error .illegalCommand := by decide

/-- R63: `KP = 0` announces no key byte. -/
theorem test_decode_refuses_wrong_lengths :
    decode { cw := 0x00010001, keyBuf := [0], nonceBuf := [] } = .error .bufferLengths := by decide

/-- R73: P2 line 2 of spec/95_test_vectors.md, its nonce cut to two bytes, and a `CMD` line. -/
theorem test_parse_lines :
    parseLine "DERIVE key=absent, nonce=0001".toList = some (.derive none [0x00, 0x01]) ∧
    parseLine "CMD 0x0c100102, key=0aFf, nonce=".toList =
      some (.cmd 0x0c100102 (some [0x0a, 0xff]) []) ∧
    parseLine "DERIVE key=0, nonce=00".toList = none := by decide

/-! ## The phases, on the vectors of spec/95_test_vectors.md -/

/-- V-L1. -/
theorem test_layout_V_L1 :
    layout keyK nonceN =
      #v[0x61707865, 0x3320646e, 0x79622d32, 0x6b206574, 0x03020100, 0x07060504, 0x0b0a0908,
         0x0f0e0d0c, 0x13121110, 0x17161514, 0x1b1a1918, 0x1f1e1d1c, 0x03020100, 0x07060504,
         0x0b0a0908, 0x0f0e0d0c] := by decide

/-- V-X4: the engine `NOT`. -/
theorem test_extract_V_X4 :
    extract (Vector.ofFn fun k => ~~~(layout keyK nonceN)[k]) (layout keyK nonceN) =
      #v[0x3d1f0f35, 0xf1f3f5f7, 0xc9cbcdcf, 0xe1e3e5e7, 0xe9ebedef, 0xe1e3e5e7, 0xd9dbdddf,
         0xd1d3d5d7] := by decide

/-! ## DERIVE, under named engines -/

/-- One ChaCha quarter-round on four words of a state (spec/93_implementation_defined.md G3: general
knowledge, for test vectors only). -/
def quarterRound (a b c d : Fin 16) (s : Words16) : Words16 :=
  let s := s.set a (s[a] + s[b])
  let s := s.set d ((s[d] ^^^ s[a]).rotateLeft 16)
  let s := s.set c (s[c] + s[d])
  let s := s.set b ((s[b] ^^^ s[c]).rotateLeft 12)
  let s := s.set a (s[a] + s[b])
  let s := s.set d ((s[d] ^^^ s[a]).rotateLeft 8)
  let s := s.set c (s[c] + s[d])
  s.set b ((s[b] ^^^ s[c]).rotateLeft 7)

/-- A column round and a diagonal round (G3). -/
def doubleRound (s : Words16) : Words16 :=
  quarterRound 3 4 9 14 <| quarterRound 2 7 8 13 <| quarterRound 1 6 11 12 <|
  quarterRound 0 5 10 15 <| quarterRound 3 7 11 15 <| quarterRound 2 6 10 14 <|
  quarterRound 1 5 9 13 <| quarterRound 0 4 8 12 s

/-- The reference binding `REF` (G3): 20 rounds, no add-back. -/
def engineREF (s : Words16) : Words16 := (List.range 10).foldl (fun s _ => doubleRound s) s

/-- The Final State after a step that completes. -/
def fsAfter : Host.Outcome State Fault Refusal → Option Words16
  | .next t => t.fs
  | .fault _ => none
  | .refused _ => none

/-- V-D1: `REF`, K, N. -/
theorem test_derive_V_D1 :
    fsAfter (deriveWith engineREF 32 24 (some keyK.toList) nonceN.toList State.reset) = some
      #v[0x61707865, 0x3320646e, 0x79622d32, 0x6b206574, 0xe48f6aec, 0x63cb7095, 0x368f67bd,
         0xe7e1c6bf, 0xc00f7ae7, 0xc571c79d, 0xc1380142, 0xf86c4321, 0x00000000, 0x00000000,
         0x13121110, 0x17161514] := by decide +kernel

/-- V-A2: the engine `ZERO` on inputs of `ff` bytes; the subtraction wraps. -/
theorem test_derive_V_A2 :
    fsAfter (deriveWith (fun _ => Vector.replicate 16 0) 32 24 (some (List.replicate 32 0xff))
      (List.replicate 24 0xff) readyState) = some
      #v[0x61707865, 0x3320646e, 0x79622d32, 0x6b206574, 0x9e8f879b, 0x00000001, 0x00000001,
         0x00000001, 0x00000001, 0x00000001, 0x00000001, 0x00000001, 0x00000000, 0x00000000,
         0xffffffff, 0xffffffff] := by decide

/-! ## Witnesses: states and operands that meet the hypotheses of the statements -/

/-- A nonce that differs from N in byte 23 alone. -/
def nonceTail : Nonce := nonceN.set 23 0xff

/-- The DERIVE of K and N, from any state, with the attached engine. -/
theorem exec_instrKN (s : State) :
    exec instrKN s = .next (s.derived Config.permute20 keyK nonceN) :=
  deriveWith_ok _ keyK nonceN s

/-- A command waiting that is illegal: V-E6 of spec/95_test_vectors.md, with its buffers. -/
def illegalCmd : Cmd :=
  { cw := 0x0c100102, keyBuf := List.replicate 16 0, nonceBuf := List.replicate 12 0 }

/-- `deriveKN` waits, with nothing overlapping it. -/
def stateKN : State := waitingFor [(.command deriveKN, false), (.sample, false)]

/-- `deriveKN` waits, and a SAMPLE overlaps it. -/
def stateSampled : State := waitingFor [(.command deriveKN, false), (.sample, true)]

/-- InstructionRoundTrip, EveryCarriedDeriveCompletes. -/
theorem witness_wellFormed : WellFormed instrKN = true ∧ WellFormed (.derive 255 0 none []) = true := by
  decide

/-- MessageRoundTrip, OperandsComeFromTheirFields. -/
theorem witness_decode : decode deriveKN = .ok instrKN := by decide

/-- MaskAndMatchSelectDerive and MessageLengthFromWordAlone: a DERIVE and an illegal word. -/
theorem witness_deliverable : Deliverable deriveKN = true ∧ Deliverable illegalCmd = true := by decide

/-- CommandWordsOfNamedLengths: buffers of each length it names. -/
theorem witness_lengths :
    ∀ n ∈ [0, 12, 16, 24, 32, 33], ∃ buf : List Byte, buf.length = n :=
  fun n _ => ⟨List.replicate n 0, by simp⟩

/-- NoReadOutOfBounds, where its clauses meet. -/
theorem witness_memRead_bounds :
    28 + 4 ≤ keyK.toList.length ∧ keyK.toList.length < 29 + 4 := by decide

/-- NonceTailOnlyInLastWords: two different nonces. -/
theorem witness_nonce_tail :
    nonceN ≠ nonceTail ∧ ∀ b : Fin 16, nonceN[b.val] = nonceTail[b.val] := by decide

/-- OnlyEightEngineWordsMatter: two different engines. -/
theorem witness_engines_agree :
    ∀ ws : Words16, ∀ k ∈ ([0, 5, 6, 7, 8, 9, 10, 15] : List (Fin 16)),
      (id ws)[k] = (ws.set 1 0)[k] := by
  intro ws k hk
  have hne : (1 : Nat) ≠ k.val := by rintro h; revert hk; simp [Fin.ext_iff, ← h]
  simp [Vector.getElem_set_ne, hne]

/-- SubkeyFillsTheKeyWords, at the words next to the key words. -/
theorem witness_outside_key_words :
    ((3 : Fin 16).val < 4 ∨ 11 < (3 : Fin 16).val) ∧
      ((12 : Fin 16).val < 4 ∨ 11 < (12 : Fin 16).val) := by decide

/-- PhasesWriteTheirOwnRegister. -/
theorem witness_phases :
    (∃ t, permutePhase id (layoutPhase keyK nonceN State.reset) = .ok t) ∧
      ∃ t, extractPhase { layoutPhase keyK nonceN State.reset with
        po := some (Vector.replicate 16 0) } = .ok t :=
  ⟨⟨_, rfl⟩, ⟨_, rfl⟩⟩

/-- BadKeyAnswersInvalidKey, ErrorReadsAndWritesNothing: an absent key, and 31 and 33 bytes. -/
theorem witness_bad_key :
    ((none : Option (List Byte)) = none ∨ (32 : Byte) ≠ 32) ∧
      (some keyK.toList = none ∨ (31 : Byte) ≠ 32) ∧ (some keyK.toList = none ∨ (33 : Byte) ≠ 32) := by
  decide

/-- BadNonceAnswersInvalidNonce, ErrorReadsAndWritesNothing: 23 and 25 bytes, and other buffers
beside the same fields. -/
theorem witness_bad_nonce :
    (23 : Byte) ≠ 24 ∧ (25 : Byte) ≠ 24 ∧
      (some keyK.toList = none ∨ (32 : Byte) ≠ 32 ∨ (23 : Byte) ≠ 24) ∧
      (some ([] : List Byte)).isSome = (some keyK.toList).isSome := by decide

/-- DeriveChangesAllOrNothing and DeriveForgetsThePast: a DERIVE that publishes and one that
does not. -/
theorem witness_exec_next :
    (∃ t, exec instrKN State.reset = .next t ∧ t.mode = .ready) ∧
      ∃ t, exec (.derive 0 24 none nonceN.toList) readyState = .next t ∧ t.fs = readyState.fs :=
  ⟨⟨_, exec_instrKN _, rfl⟩, ⟨_, rfl, rfl⟩⟩

/-- DeriveForgetsThePast: its last clause. -/
theorem witness_answered_ok :
    AnsweredOK (State.reset.derived Config.permute20 keyK nonceN) := ⟨_, rfl⟩

/-- ShortBufferFaults, one byte short. -/
theorem witness_short_buffers :
    ((List.replicate 31 0 : List Byte).length < 32 ∨ nonceN.toList.length < 24) ∧
      (keyK.toList.length < 32 ∨ (List.replicate 23 0 : List Byte).length < 24) := by decide

/-- StepRunsDecodedInstruction, FirstErrorIsReported, WrongLengthsAreRefused: a good DERIVE. -/
theorem witness_undisturbed :
    stateKN.inputs = { event := .command deriveKN, overlaps := false } ::
        [{ event := .sample, overlaps := false }] ∧
      decode deriveKN = .ok instrKN ∧ Deliverable deriveKN = true ∧
      window stateKN.portView [{ event := .sample, overlaps := false }] =
        .undisturbed [] [{ event := .sample, overlaps := false }] := by decide

/-- FirstErrorIsReported: a message for each of its other outcomes, V-E6, V-V12 and V-V10. -/
theorem witness_each_outcome :
    Deliverable illegalCmd = true ∧ illegalCmd.cw &&& 0x0000feff ≠ 0x00000001 ∧
      Deliverable (assembleDerive (some (List.replicate 16 0)) (List.replicate 12 0)) = true ∧
      Deliverable (assembleDerive (some keyK.toList) (List.replicate 12 0)) = true := by decide

/-- PlacedWordRunsNext. -/
theorem witness_placed_word : decodeTableWord 32 0x18000001 =
    some (.derive 0 24 none (List.replicate 24 0)) := by decide

/-- WrongLengthsAreRefused: a message one key byte short. -/
theorem witness_wrong_lengths :
    step (waitingFor [(.command { deriveKN with keyBuf := List.replicate 31 0 }, false)]) =
      .refused .bufferLengthMismatch := by rfl

/-- IllegalWordIsAnswered and IllegalWordHasNoWindow. -/
theorem witness_illegal_word :
    (waitingFor [(.command illegalCmd, false), (.sample, false)]).inputs =
        { event := .command illegalCmd, overlaps := false } ::
          [{ event := .sample, overlaps := false }] ∧
      window State.reset.portView [{ event := .sample, overlaps := false }] =
        .undisturbed [] [{ event := .sample, overlaps := false }] ∧
      Deliverable illegalCmd = true ∧ illegalCmd.cw &&& 0x0000feff ≠ 0x00000001 := by decide

/-- The window of a DERIVE before keying: a command waits, and SAMPLE sees `ready = 0` (R73, R87). -/
theorem test_window_before_keying :
    window State.reset.portView
        [{ event := .command illegalCmd, overlaps := true }, { event := .sample, overlaps := true },
         { event := .sample, overlaps := false }] =
      .undisturbed [{ ready := false, stateOut := none }]
        [{ event := .command illegalCmd, overlaps := true },
         { event := .sample, overlaps := false }] := by decide

/-- A step of `stateKN` runs the DERIVE. -/
theorem step_stateKN :
    step stateKN = .next (State.derived Config.permute20 keyK nonceN
      { stateKN with inputs := [{ event := .sample, overlaps := false }] }) := by
  rw [step_command (i := { event := .command deriveKN, overlaps := false }) rfl rfl]
  simp only [State.accept, witness_decode]
  exact exec_instrKN _

/-- R73, R81: the SAMPLE in a DERIVE's window saw `ready = 0`, and the DERIVE then published. -/
theorem test_sample_before_keying :
    ∃ t, step stateSampled = .next t ∧ t.mode = .ready ∧ t.inputs = [] ∧
      t.sampled = [{ ready := false, stateOut := none }] := by
  rw [step_command (i := { event := .command deriveKN, overlaps := false }) rfl rfl]
  simp only [State.accept, witness_decode]
  exact ⟨_, congrArg (afterSeeing _) (exec_instrKN _), rfl, rfl, rfl⟩

/-- OneRequestPerGoodDerive, PublishedStateIsOnThePort, WorkingRegistersLeaveNoTrace and the first
clause of ModeAndFSHaveTwoWriters. -/
theorem witness_step_ok :
    ∃ t r, step stateKN = .next t ∧ t.exchanges ≠ [] ∧ t.rsp = some r ∧ r.status = .ok ∧
      AnsweredOK t :=
  ⟨_, _, step_stateKN, by simp, rfl, rfl, ⟨_, rfl⟩⟩

/-- OverlappingCommandsWait: two commands held off, and a sample after the response. -/
theorem witness_commands_wait :
    (waitingFor [(.command deriveKN, false), (.command illegalCmd, true), (.command deriveKN, true),
        (.sample, false)]).inputs =
      { event := .command deriveKN, overlaps := false } ::
        (waiting [illegalCmd, deriveKN] ++ [{ event := .sample, overlaps := false }]) ∧
      ∀ x ∈ [({ event := .sample, overlaps := false } : Input)].head?, x.overlaps = false := by decide

/-- SampleDuringDeriveFaults: both events, and none or one command before them.
SampleBeforeKeyingSeesNotReady, with the first events in the other mode. -/
theorem witness_sample_during_derive :
    ({ readyState with inputs := stateSampled.inputs } : State).inputs =
      { event := .command deriveKN, overlaps := false } ::
        (waiting [] ++ { event := .sample, overlaps := true } :: []) ∧
    readyState.mode = .ready ∧ stateSampled.mode = .uninitialized ∧
    (waitingFor [(.command deriveKN, false), (.command illegalCmd, true),
        (.readStateOut, true)]).inputs =
      { event := .command deriveKN, overlaps := false } ::
        (waiting [illegalCmd] ++ { event := .readStateOut, overlaps := true } :: []) := by decide

/-- ResetGivesTheResetState: each clause, and the second and third clause of
ModeAndFSHaveTwoWriters. -/
theorem witness_reset :
    (waitingFor [(.reset, false)]).inputs = { event := .reset, overlaps := false } :: [] ∧
    (waitingFor [(.command deriveKN, false), (.command illegalCmd, true), (.reset, true)]).inputs =
      { event := .command deriveKN, overlaps := false } ::
        (waiting [illegalCmd] ++ { event := .reset, overlaps := true } :: []) := by decide

theorem witness_reset_takes_place :
    ResetTakesPlace (waitingFor [(.reset, false)]) ∧
      (∃ t, step (waitingFor [(.reset, false)]) = .next t) ∧
      ResetTakesPlace (waitingFor [(.command deriveKN, false), (.reset, true)]) ∧
      ∃ t, step (waitingFor [(.command deriveKN, false), (.reset, true)]) = .next t := by
  refine ⟨trivial, ⟨_, rfl⟩, ⟨⟨_, witness_decode⟩, ⟨_, _, rfl⟩⟩, ?_⟩
  rw [step_command (i := { event := .command deriveKN, overlaps := false }) rfl rfl]
  simp only [State.accept, witness_decode]
  exact ⟨_, rfl⟩

theorem witness_neither_answer_nor_reset :
    ∃ t, step (waitingFor [(.sample, false)]) = .next t ∧ ¬ AnsweredOK t ∧
      ¬ ResetTakesPlace (waitingFor [(.sample, false)]) :=
  ⟨_, rfl, nofun, id⟩

/-- ReadingNoneFaults: each clause. -/
theorem witness_reading_none :
    (waitingFor [(.readStateOut, false)]).inputs =
        { event := .readStateOut, overlaps := false } :: [] ∧
      (waitingFor [(.readStateOut, false)]).mode = .uninitialized ∧ State.reset.es = none ∧
      State.reset.po = none ∧ State.reset.sk = none ∧
      ({ State.reset with po := some (Vector.replicate 16 0) } : State).po.isSome = true := by decide

/-- SampleShowsThePort and MachineGoesOnIffOutsideIsOrderly: a SAMPLE in both modes, and a read of
`state_out` while Ready. -/
theorem witness_mode_matches :
    ModeMatchesFS (waitingFor [(.sample, false)]) ∧
      ModeMatchesFS { readyState with inputs := [{ event := .sample, overlaps := false }] } ∧
      ModeMatchesFS { readyState with inputs := [{ event := .readStateOut, overlaps := false }] } ∧
      readyState.mode = .ready := by
  simp [ModeMatchesFS, waitingFor, State.reset, readyState]

/-- MachineGoesOnIffOutsideIsOrderly: an orderly outside and a disorderly one. -/
theorem witness_orderly :
    Orderly stateKN ∧ ¬ Orderly (waitingFor [(.readStateOut, false)]) :=
  ⟨⟨witness_deliverable.1, fun _ => nofun⟩, nofun⟩

/-- IdleBlockKeepsItsState. -/
theorem witness_idle : readyState.inputs = [] := by decide

/-- StepKeepsInvariant: a state with a command waiting, which a DERIVE then changes. -/
theorem witness_invariant : Inv stateKN ∧ ∃ t, step stateKN = .next t ∧ t.mode ≠ stateKN.mode := by
  refine ⟨⟨?_, ⟨rfl, rfl, rfl⟩, nofun, nofun, rfl, nofun⟩, ⟨_, step_stateKN, nofun⟩⟩
  simp [ModeMatchesFS, stateKN, waitingFor, State.reset]

end Sys2Proof.Tests
end

