-- ==== Sys2Proof/Proofs/Scope.lean ====
section
/-!
The statements of spec/00_scope.md: words are subtracted modulo 2^32 (R10), and a whole command is
one step of the machine (R6). The rule for EXTRACT and the rule for a step that decodes its command
serve the other families too.
-/

namespace Sys2Proof.Machine

/-- The extraction indices in the order of R141, as a list that a statement can write out. -/
theorem xidx_getElem_eq_list (j : Fin 8) :
    xidx[j] = ([0, 5, 10, 15, 6, 7, 8, 9] : List (Fin 16))[j.val] := by
  revert j; decide

/-- EXTRACT word by word (R140). -/
theorem extract_getElem (po es : Words16) (j : Fin 8) :
    (extract po es)[j] = po[xidx[j]] - es[xidx[j]] :=
  Vector.getElem_ofFn j.isLt

/-- A difference of words is taken modulo 2^32, in the spelling of R10. -/
theorem toNat_sub_word (a b : Word) : (a - b).toNat = (a.toNat + 2 ^ 32 - b.toNat) % 2 ^ 32 := by
  rw [BitVec.toNat_sub', ← Nat.add_sub_assoc b.isLt.le]

/-- Settles O15: each word of EXTRACT is a difference of words (R140), read as a number. -/
theorem subkeyWordsInFixedOrder : Obligations.SubkeyWordsInFixedOrder := by
  intro po es j
  rw [extract_getElem, toNat_sub_word]
  simp only [xidx_getElem_eq_list]

/-- A command that decodes and whose window is undisturbed runs, after what the samples in the window
saw, on the state without the events of the window. -/
theorem step_of_undisturbed {s : State} {i : Input} {rest rest' : List Input} {c : Cmd}
    {instr : Instr} {seen : List PortView} (hs : s.inputs = i :: rest)
    (he : i.event = .command c) (hd : decode c = .ok instr)
    (hw : window s.portView rest = .undisturbed seen rest') :
    step s = afterSeeing seen (exec instr { s with inputs := rest' }) := by
  have hview : ({ s with inputs := rest } : State).portView = s.portView := rfl
  have haccept : { s with inputs := rest }.accept c = .run instr { s with inputs := rest' } seen := by
    simp only [State.accept, hd, hview, hw]
  rw [step_command hs he, haccept]

/-- Settles O31: where nothing overlaps the command its window is undisturbed and sees nothing, so
the first clause is the second with `seen = []`. -/
theorem stepRunsDecodedInstruction : Obligations.StepRunsDecodedInstruction := by
  intro s c ov rest i hs hd
  refine ⟨fun hlater => ?_, fun seen rest' hw => step_of_undisturbed hs rfl hd hw⟩
  rw [step_of_undisturbed hs rfl hd (window_of_later s.portView rest hlater), afterSeeing_nil]

end Sys2Proof.Machine
end

