-- ==== Sys2Proof/Proofs/State.lean ====
section
/-!
The statements of spec/10_state.md: what reads and writes the registers (R20 to R32), the state after
reset (R33), and the invariant of the machine (R35). The rules for a command that the ports settle,
and the two summaries of a step (`step_next_effect`, what it does to the block, and `step_action`,
that it reads no more than `mode`, FS and the inputs), serve the other families too.
-/

namespace Sys2Proof.Machine

/-! ## Constants -/

/-- Settles O10: each word by its four bytes, the text by its sixteen. -/
theorem sigmaIsThePackedText : Obligations.SigmaIsThePackedText :=
  ⟨by decide, rfl, by decide⟩

/-! ## The phases, by what the registers they read hold -/

section Phases

variable {permute : Words16 → Words16} {s : State} {es po : Words16}

theorem permutePhase_of_some (h : s.es = some es) :
    permutePhase permute s = .ok { s with
      po := some (permute es), exchanges := s.exchanges ++ [askEngine permute es] } := by
  simp only [permutePhase, h, readReg_some]; rfl

theorem permutePhase_of_none (h : s.es = none) :
    permutePhase permute s = .error (.readNone .es) := by
  simp only [permutePhase, h, readReg_none]; rfl

theorem extractPhase_of_some (hpo : s.po = some po) (hes : s.es = some es) :
    extractPhase s = .ok { s with sk := some (extract po es) } := by
  simp only [extractPhase, hpo, hes, readReg_some]; rfl

theorem extractPhase_of_po_none (h : s.po = none) : extractPhase s = .error (.readNone .po) := by
  simp only [extractPhase, h, readReg_none]; rfl

theorem extractPhase_of_es_none (hpo : s.po = some po) (hes : s.es = none) :
    extractPhase s = .error (.readNone .es) := by
  simp only [extractPhase, hpo, hes, readReg_some, readReg_none]; rfl

theorem assembleAndPublish_of_none (nonce : Nonce) (h : s.sk = none) :
    assembleAndPublish nonce s = .error (.readNone .sk) := by
  simp only [assembleAndPublish, h, readReg_none]; rfl

end Phases

/-- Settles O20: a phase that completes found values in the registers it reads, for on `none` it
faults, and its rule for these values says what it writes. -/
theorem phasesWriteTheirOwnRegister : Obligations.PhasesWriteTheirOwnRegister := by
  refine ⟨fun permute s t h => ?_, fun s t h => ?_⟩
  · obtain ⟨es, hes⟩ : ∃ es, s.es = some es :=
      Option.ne_none_iff_exists'.1 fun hes => by rw [permutePhase_of_none hes] at h; cases h
    rw [permutePhase_of_some hes] at h
    exact ⟨es, hes, (Except.ok.inj h).symm⟩
  · obtain ⟨po, hpo⟩ : ∃ po, s.po = some po :=
      Option.ne_none_iff_exists'.1 fun hpo => by rw [extractPhase_of_po_none hpo] at h; cases h
    obtain ⟨es, hes⟩ : ∃ es, s.es = some es :=
      Option.ne_none_iff_exists'.1 fun hes => by rw [extractPhase_of_es_none hpo hes] at h; cases h
    rw [extractPhase_of_some hpo hes] at h
    exact ⟨po, es, hpo, hes, (Except.ok.inj h).symm⟩

/-! ## The state output port -/

/-- What the port shows, by the mode alone (R28). -/
theorem portView_eq (s : State) : s.portView =
    { ready := decide (s.mode = .ready), stateOut := if s.mode = .ready then s.fs else none } := by
  cases h : s.mode <;> simp [State.portView, State.stateOut, Mode.readyLine, h]

theorem doRead_of_none {s : State} (h : s.stateOut = none) :
    s.doRead = .fault (.readNone .fs) := by
  simp only [State.doRead, h, readReg_none]

theorem doRead_of_some {s : State} {fs : Words16} (h : s.stateOut = some fs) :
    s.doRead = .next (s.drive none [] [s.portView]) := by
  simp only [State.doRead, h, readReg_some]

/-- Settles O44: `state_out` shows `none` while Uninitialized, each phase reads its register first,
and a DERIVE that stops has met the end of a buffer, never a register. -/
theorem readingNoneFaults : Obligations.ReadingNoneFaults := by
  refine ⟨fun s ov rest hs hmode => ?_, fun permute s => permutePhase_of_none,
    fun s => extractPhase_of_po_none, fun s hpo hes => ?_,
    fun nonce s => assembleAndPublish_of_none nonce, fun i s r h => ?_⟩
  · rw [step_read hs rfl]
    exact doRead_of_none (stateOut_uninitialized hmode)
  · obtain ⟨po, hpo⟩ := Option.isSome_iff_exists.1 hpo
    exact extractPhase_of_es_none hpo hes
  · cases i with
    | derive klen nlen key nonce => cases (deriveWith_fault h).1

/-- Settles O45: both drive the view of the port; a read needs FS to hold a value for it, which
`ModeMatchesFS` gives while Ready. -/
theorem sampleShowsThePort : Obligations.SampleShowsThePort := by
  refine ⟨fun s ov rest hs => ?_, fun s ov rest hs hmode hfs => ?_⟩
  · rw [step_sample hs rfl, portView_eq]
    rfl
  · obtain ⟨fs, hfs⟩ := Option.isSome_iff_exists.1 (hfs.1 hmode)
    have hout : ({ s with inputs := rest } : State).stateOut = some fs :=
      (stateOut_ready hmode).trans hfs
    rw [step_read hs rfl, doRead_of_some hout, portView_eq]
    simp [hmode, State.drive]

/-! ## The command port, case by case -/

section CommandPort

variable {s : State} {i : Input} {rest rest' : List Input} {c : Cmd} {instr : Instr}
  {seen : List PortView}

/-- R63: the transport refuses the message. -/
theorem step_of_bufferLengths (hs : s.inputs = i :: rest) (he : i.event = .command c)
    (hd : decode c = .error .bufferLengths) : step s = .refused .bufferLengthMismatch := by
  simp only [step_command hs he, State.accept, hd]

/-- R71: an illegal word is answered. -/
theorem step_of_illegalCommand (hs : s.inputs = i :: rest) (he : i.event = .command c)
    (hd : decode c = .error .illegalCommand) :
    step s = .next ({ s with inputs := rest }.raise .illegalCommand) := by
  simp only [step_command hs he, State.accept, hd]

/-- R200: a reset in its window abandons the DERIVE. -/
theorem step_of_abandoned (hs : s.inputs = i :: rest) (he : i.event = .command c)
    (hd : decode c = .ok instr) (hw : window s.portView rest = .abandoned seen rest') :
    step s = .next ({ s with inputs := rest' }.applyReset.seenFirst seen) := by
  have hview : ({ s with inputs := rest } : State).portView = s.portView := rfl
  simp only [step_command hs he, State.accept, hd, hview, hw]

/-- R205: a sample of `state_out` in its window stops the model. -/
theorem step_of_sampled (hs : s.inputs = i :: rest) (he : i.event = .command c)
    (hd : decode c = .ok instr) (hw : window s.portView rest = .sampled) :
    step s = .fault .sampledDuringDerive := by
  have hview : ({ s with inputs := rest } : State).portView = s.portView := rfl
  simp only [step_command hs he, State.accept, hd, hview, hw]

end CommandPort

/-! ## A step reads `mode`, FS and the inputs alone -/

/-- What a step does to the block, once the inputs and the view of the port have settled it. -/
inductive StepAction where
  /-- Nothing but that the ports fall quiet and an agent saw `seen`. -/
  | pass (seen : List PortView) (rest : List Input)
  /-- The answer to an illegal word. -/
  | reject (rest : List Input)
  /-- The reset input. -/
  | reset (seen : List PortView) (rest : List Input)
  /-- A decoded instruction. -/
  | run (instr : Instr) (seen : List PortView) (rest : List Input)
  | fault (f : Fault)
  | refuse (r : Refusal)

/-- An action on a state. -/
def StepAction.perform (s : State) : StepAction → Host.Outcome State Fault Refusal
  | .pass seen rest => .next ({ s with inputs := rest }.drive none [] seen)
  | .reject rest => .next ({ s with inputs := rest }.raise .illegalCommand)
  | .reset seen rest => .next ({ s with inputs := rest }.applyReset.seenFirst seen)
  | .run instr seen rest => afterSeeing seen (exec instr { s with inputs := rest })
  | .fault f => .fault f
  | .refuse r => .refused r

/-- Steps from two states with the same `mode`, FS and inputs are one action on each. -/
theorem step_action {s s' : State} (hmode : s'.mode = s.mode) (hfs : s'.fs = s.fs)
    (hinputs : s'.inputs = s.inputs) :
    ∃ a : StepAction, step s = a.perform s ∧ step s' = a.perform s' := by
  have hout : s'.stateOut = s.stateOut := by simp only [State.stateOut, hmode, hfs]
  have hview : s'.portView = s.portView := by simp only [State.portView, hmode, hout]
  cases hs : s.inputs with
  | nil =>
    have hs' := hinputs.trans hs
    refine ⟨.pass [] [], ?_, ?_⟩
    · rw [step_idle hs, StepAction.perform, ← hs]; rfl
    · rw [step_idle hs', StepAction.perform, ← hs']; rfl
  | cons i rest =>
    have hs' := hinputs.trans hs
    cases he : i.event with
    | reset => exact ⟨.reset [] rest, step_reset hs he, step_reset hs' he⟩
    | sample =>
      exact ⟨.pass [s.portView] rest, step_sample hs he, hview ▸ step_sample hs' he⟩
    | readStateOut =>
      cases ho : s.stateOut with
      | none =>
        exact ⟨.fault (.readNone .fs), (step_read hs he).trans (doRead_of_none ho),
          (step_read hs' he).trans (doRead_of_none (hout.trans ho))⟩
      | some fs =>
        exact ⟨.pass [s.portView] rest, (step_read hs he).trans (doRead_of_some ho),
          hview ▸ (step_read hs' he).trans (doRead_of_some (hout.trans ho))⟩
    | command c =>
      cases hd : decode c with
      | error e =>
        cases e with
        | bufferLengths =>
          exact ⟨.refuse .bufferLengthMismatch, step_of_bufferLengths hs he hd,
            step_of_bufferLengths hs' he hd⟩
        | illegalCommand =>
          exact ⟨.reject rest, step_of_illegalCommand hs he hd, step_of_illegalCommand hs' he hd⟩
      | ok instr =>
        cases hw : window s.portView rest with
        | undisturbed seen rest' =>
          exact ⟨.run instr seen rest', step_of_undisturbed hs he hd hw,
            step_of_undisturbed hs' he hd (hview ▸ hw)⟩
        | abandoned seen rest' =>
          exact ⟨.reset seen rest', step_of_abandoned hs he hd hw,
            step_of_abandoned hs' he hd (hview ▸ hw)⟩
        | sampled =>
          exact ⟨.fault .sampledDuringDerive, step_of_sampled hs he hd hw,
            step_of_sampled hs' he hd (hview ▸ hw)⟩

/-- Every instruction drives the ports anew. -/
theorem exec_drive (instr : Instr) (s : State) (rsp : Option Rsp) (exchanges : List Exchange)
    (sampled : List PortView) : exec instr (s.drive rsp exchanges sampled) = exec instr s := rfl

/-- Settles O49: each action drives the ports anew, and no action is chosen by what they carried. -/
theorem noStepReadsAnEarlierStatus : Obligations.NoStepReadsAnEarlierStatus := by
  intro s rsp exchanges sampled
  obtain ⟨a, hs, hs'⟩ := step_action (s := s) (s' := s.drive rsp exchanges sampled) rfl rfl rfl
  refine hs'.trans (Eq.trans ?_ hs.symm)
  cases a with
  | run instr seen rest =>
    exact congrArg (afterSeeing seen)
      (exec_drive instr { s with inputs := rest } rsp exchanges sampled)
  | pass | reject | reset | fault | refuse => rfl

/-- An instruction that completes from one state does the same from every state: it answers with an
error of VALIDATE, or it publishes the Final State of some key and nonce. -/
theorem exec_uniform {instr : Instr} {s t : State} (h : exec instr s = .next t) :
    (∃ e, e ≠ .ok ∧ ∀ s', exec instr s' = .next (s'.raise e)) ∨
      ∃ key nonce, ∀ s', exec instr s' = .next (s'.derived Config.permute20 key nonce) := by
  obtain ⟨klen, nlen, key, nonce⟩ := instr
  obtain ⟨e, he, -⟩ | ⟨k, n, hv, hk, hn, -⟩ := deriveWith_next h
  · refine .inl ⟨e, ?_, deriveWith_error he⟩
    rintro rfl
    obtain hv | hv | hv := validate_cases key.isSome klen nlen <;> rw [hv] at he <;> cases he
  · refine .inr ⟨k, n, fun s' => ?_⟩
    rw [exec_derive, deriveWith, hv]
    exact congrArg toOutcome (computePhases_of_memRead hk hn s')

/-- Settles O50: each action leaves ES, PO and SK alone or overwrites them, and no action is chosen
by what they hold. -/
theorem workingRegistersLeaveNoTrace : Obligations.WorkingRegistersLeaveNoTrace := by
  intro s t es po sk h
  obtain ⟨a, hs, hs'⟩ :=
    step_action (s := s) (s' := { s with es := es, po := po, sk := sk }) rfl rfl rfl
  have ha := hs.symm.trans h
  cases a with
  | pass | reject | reset => cases ha; exact ⟨_, hs', rfl, rfl, rfl, rfl, rfl, rfl⟩
  | fault | refuse => cases ha
  | run instr seen rest =>
    obtain ⟨u, hu, rfl⟩ := afterSeeing_eq_next ha
    obtain ⟨e, -, hall⟩ | ⟨key, nonce, hall⟩ := exec_uniform hu
    all_goals
      cases (hall _).symm.trans hu
      exact ⟨_, hs'.trans (congrArg (afterSeeing seen) (hall _)), rfl, rfl, rfl, rfl, rfl, rfl⟩

/-! ## What a step does to the block -/

/-- The response port carries no `OK`: nothing at all, or an error with no payload. -/
def NotOK (rsp : Option Rsp) : Prop :=
  ∀ r, rsp = some r → r.status ≠ .ok ∧ r.payload = none

/-- The three effects that a step can have on the block. -/
inductive StepEffect (s : State) : State → Prop where
  /-- The block is as before: idle, a sample, or a command that ends in an error. -/
  | untouched (rsp : Option Rsp) (seen : List PortView) (rest : List Input)
      (hreset : ¬ ResetTakesPlace s) (hrsp : NotOK rsp) :
      StepEffect s ({ s with inputs := rest }.drive rsp [] seen)
  /-- The reset input (R200). -/
  | reset (seen : List PortView) (rest : List Input) (hreset : ResetTakesPlace s) :
      StepEffect s { State.reset with inputs := rest, sampled := seen }
  /-- A Final State is published (R165). -/
  | published (key : Key) (nonce : Nonce) (seen : List PortView) (rest : List Input)
      (hreset : ¬ ResetTakesPlace s) :
      StepEffect s (({ s with inputs := rest }.derived Config.permute20 key nonce).seenFirst seen)

theorem notOK_none : NotOK none := nofun

theorem notOK_error {e : Status} (h : e ≠ .ok) :
    NotOK (some { status := e, payload := none }) := by
  rintro r ⟨⟩
  exact ⟨h, rfl⟩

/-- When the event taken is a command, only a reset in the window of a DERIVE counts. -/
theorem resetTakesPlace_command_iff {s : State} {i : Input} {rest : List Input} {c : Cmd}
    (hs : s.inputs = i :: rest) (he : i.event = .command c) :
    ResetTakesPlace s ↔ (∃ instr, decode c = .ok instr) ∧
      ∃ seen rest', window s.portView rest = .abandoned seen rest' := by
  simp only [ResetTakesPlace, hs, he]

/-- A step that completes has one of the three effects. -/
theorem step_next_effect {s t : State} (h : step s = .next t) : StepEffect s t := by
  obtain ⟨hs, rfl⟩ | ⟨i, rest, hs, hstep⟩ := step_next h
  · have hquiet : s.quiet = { s with inputs := s.inputs }.drive none [] [] := rfl
    rw [hquiet]
    exact .untouched _ _ _ (by simp only [ResetTakesPlace, hs, not_false_eq_true]) notOK_none
  obtain ⟨he, rfl⟩ | ⟨he, rfl⟩ | ⟨c, he, hcommand⟩ := hstep
  · exact .reset [] rest (by simp only [ResetTakesPlace, hs, he])
  · refine .untouched _ _ _ ?_ notOK_none
    obtain he | he := he <;> simp only [ResetTakesPlace, hs, he, not_false_eq_true]
  have hreset := resetTakesPlace_command_iff hs he
  obtain ⟨hd, rfl⟩ | ⟨instr, hd, seen, rest', ⟨hw, rfl⟩ | ⟨hw, u, hu, rfl⟩⟩ := hcommand
  · exact .untouched _ _ _ (by simp [hreset, hd]) (notOK_error nofun)
  · have heffect := StepEffect.reset seen rest' (hreset.2 ⟨⟨instr, hd⟩, seen, rest', hw⟩)
    rwa [← List.append_nil seen] at heffect
  · have hno : ¬ ResetTakesPlace s := by simp [hreset, hw]
    obtain ⟨e, hne, hall⟩ | ⟨key, nonce, hall⟩ := exec_uniform hu
    · cases (hall _).symm.trans hu
      exact .untouched _ (seen ++ []) _ hno (notOK_error hne)
    · cases (hall _).symm.trans hu
      exact .published key nonce seen rest' hno

/-- Settles O48: `OK` comes with the effect that publishes and with no other, and a reset with its
own. -/
theorem modeAndFSHaveTwoWriters : Obligations.ModeAndFSHaveTwoWriters := by
  refine ⟨fun s t h => ?_, rfl, rfl⟩
  cases step_next_effect h with
  | untouched rsp seen rest hreset hrsp =>
    refine ⟨?_, fun hr => absurd hr hreset, fun _ _ => ⟨rfl, rfl⟩⟩
    rintro ⟨payload, hok⟩
    exact absurd rfl (hrsp _ hok).1
  | reset seen rest hreset =>
    exact ⟨nofun, fun _ => ⟨rfl, rfl⟩, fun _ hno => absurd hreset hno⟩
  | published key nonce seen rest hreset =>
    exact ⟨fun _ => ⟨rfl, rfl⟩, fun hr => absurd hr hreset, fun hno _ => absurd ⟨_, rfl⟩ hno⟩

/-! ## Reset and the invariant -/

/-- Settles O43: the values of R33, field by field. -/
theorem resetStateValues : Obligations.ResetStateValues :=
  ⟨rfl, rfl, rfl, rfl, rfl, rfl, rfl⟩

/-- Settles O51: no register holds a value, and no port carries anything. -/
theorem resetMeetsInvariant : Obligations.ResetMeetsInvariant :=
  ⟨⟨nofun, nofun⟩, ⟨rfl, rfl, rfl⟩, nofun, nofun, rfl, nofun⟩

/-- With the block as it was and no `OK` on the ports, the invariant stays. -/
theorem inv_untouched {s : State} {rsp : Option Rsp} (h : Inv s) (hrsp : NotOK rsp)
    (seen : List PortView) (rest : List Input) :
    Inv ({ s with inputs := rest }.drive rsp [] seen) := by
  obtain ⟨hmode, hwork, hfs, -, -⟩ := h
  refine ⟨hmode, hwork, hfs, fun r hr => ?_, ?_, nofun⟩
  · obtain ⟨hne, hpayload⟩ := hrsp r hr
    exact ⟨fun hok => absurd hok hne, fun _ => hpayload⟩
  · cases rsp with
    | none => rfl
    | some r => simp [(hrsp r rfl).1]

/-- The invariant says nothing of the inputs and of what was sampled, so any reset meets it. -/
theorem inv_reset (seen : List PortView) (rest : List Input) :
    Inv { State.reset with inputs := rest, sampled := seen } := resetMeetsInvariant

/-- A published state meets the invariant, whatever the state before. -/
theorem inv_published (s : State) (key : Key) (nonce : Nonce) (seen : List PortView) :
    Inv ((s.derived Config.permute20 key nonce).seenFirst seen) := by
  refine ⟨⟨fun _ => rfl, fun _ => rfl⟩, ⟨rfl, rfl, rfl⟩, ?_, ?_, rfl, ?_⟩
  · rintro fs ⟨⟩
    exact ⟨key, nonce, rfl⟩
  · rintro r ⟨⟩
    exact ⟨fun _ => ⟨rfl, rfl, rfl⟩, fun hne => absurd rfl hne⟩
  · intro x hx
    obtain rfl := List.mem_singleton.1 hx
    exact ⟨rfl, rfl⟩

/-- Settles O52, effect by effect. -/
theorem stepKeepsInvariant : Obligations.StepKeepsInvariant := by
  intro s t hinv h
  cases step_next_effect h with
  | untouched rsp seen rest hreset hrsp => exact inv_untouched hinv hrsp seen rest
  | reset seen rest hreset => exact inv_reset seen rest
  | published key nonce seen rest hreset =>
    exact inv_published { s with inputs := rest } key nonce seen

/-! ## When the machine goes on -/

/-- Only well-formed instructions are decoded: the transport has counted the buffers (R63). -/
theorem wellFormed_of_decode {c : Cmd} {instr : Instr} (h : decode c = .ok instr) :
    WellFormed instr = true := by
  obtain ⟨hdeliver, -, rfl⟩ := decode_eq_ok h
  obtain ⟨hk, hn⟩ : c.keyBuf.length = keyLength c.cw ∧ c.nonceBuf.length = nonceLength c.cw := by
    simpa only [Deliverable, Bool.and_eq_true, decide_eq_true_eq] using hdeliver
  cases hkp : fieldKp c.cw with
  | false => simp [WellFormed, keyFits, nonceFits, hn, nonceLength]
  | true => simp [WellFormed, keyFits, nonceFits, hn, nonceLength, hk, keyLength, hkp]

/-- A well-formed instruction completes from every state: where VALIDATE passes, its buffers are as
long as the phases read. -/
theorem exec_completes_of_wellFormed {instr : Instr} (h : WellFormed instr = true) (s : State) :
    ∃ t, exec instr s = .next t := by
  obtain ⟨klen, nlen, key, nonce⟩ := instr
  rw [exec_derive]
  cases hv : validate key.isSome klen nlen with
  | some e => exact ⟨_, deriveWith_error hv s⟩
  | none =>
    obtain ⟨hkey, rfl, rfl⟩ := validate_eq_none_iff.1 hv
    obtain ⟨buf, rfl⟩ := Option.isSome_iff_exists.1 hkey
    obtain ⟨hk, hn⟩ : buf.length = 32 ∧ nonce.length = 24 := by
      simpa [WellFormed, keyFits, nonceFits] using h
    obtain ⟨k, rfl⟩ := exists_toList hk
    obtain ⟨n, rfl⟩ := exists_toList hn
    exact ⟨_, deriveWith_ok Config.permute20 k n s⟩

/-- A command goes on exactly when the transport can carry it and, for a DERIVE, no one samples
`state_out` in its window. -/
theorem completes_command_iff {s : State} {i : Input} {rest : List Input} {c : Cmd}
    (hs : s.inputs = i :: rest) (he : i.event = .command c) :
    Completes s ↔ Deliverable c = true ∧
      (isDerive c.cw = true → window s.portView rest ≠ .sampled) := by
  cases hd : decode c with
  | error e =>
    cases e with
    | bufferLengths =>
      simp [Completes, step_of_bufferLengths hs he hd, decode_eq_bufferLengths_iff.1 hd]
    | illegalCommand =>
      simp [Completes, step_of_illegalCommand hs he hd, decode_eq_illegal_iff.1 hd]
  | ok instr =>
    obtain ⟨hdeliver, hderive, -⟩ := decode_eq_ok hd
    cases hw : window s.portView rest with
    | undisturbed seen rest' =>
      obtain ⟨t, ht⟩ := exec_completes_of_wellFormed (wellFormed_of_decode hd)
        { s with inputs := rest' }
      simp [Completes, step_of_undisturbed hs he hd hw, ht, hdeliver]
    | abandoned seen rest' => simp [Completes, step_of_abandoned hs he hd hw, hdeliver]
    | sampled => simp [Completes, step_of_sampled hs he hd hw, hderive]

/-- A read of `state_out` goes on exactly when the port shows a value. -/
theorem completes_read_iff {s : State} {i : Input} {rest : List Input}
    (hs : s.inputs = i :: rest) (he : i.event = .readStateOut) :
    Completes s ↔ s.stateOut.isSome = true := by
  rw [Completes, step_read hs he]
  cases ho : s.stateOut with
  | none => simp [doRead_of_none (s := { s with inputs := rest }) ho]
  | some fs => simp [doRead_of_some (s := { s with inputs := rest }) ho]

/-- Settles O53, event by event; `ModeMatchesFS` makes the port show a value exactly while Ready. -/
theorem machineGoesOnIffOutsideIsOrderly : Obligations.MachineGoesOnIffOutsideIsOrderly := by
  intro s hfs
  cases hs : s.inputs with
  | nil => simp [Orderly, hs, Completes, step_idle hs]
  | cons i rest =>
    cases he : i.event with
    | command c => simpa only [Orderly, hs, he] using completes_command_iff hs he
    | reset => simp [Orderly, hs, he, Completes, step_reset hs he]
    | sample => simp [Orderly, hs, he, Completes, step_sample hs he]
    | readStateOut =>
      simp only [Orderly, hs, he, completes_read_iff hs he]
      cases hmode : s.mode with
      | uninitialized => simp [stateOut_uninitialized hmode]
      | ready => simpa [stateOut_ready hmode] using hfs.1 hmode

end Sys2Proof.Machine
end

