-- ==== Sys2Proof/Proofs/Memory.lean ====
section
/-!
The statements of spec/20_memory.md: `MemRead` and its fault (R42), the little-endian packing and
its inverse (R43, R45), and the atomic update of `(mode, FS)` by a DERIVE (R48, R50). That a word is
its four bytes (`toNat_eq_bytes`, `word_ext_bytes`), and the cases of an `exec` that completes
(`exec_next_cases`), serve the other families too.
-/

namespace Sys2Proof.Machine

/-! ## Words and bytes -/

/-- A word's value is that of its four bytes, lowest first. -/
theorem toNat_eq_bytes (w : Word) :
    w.toNat = (w.extractLsb' 0 8).toNat + 2 ^ 8 * (w.extractLsb' 8 8).toNat
      + 2 ^ 16 * (w.extractLsb' 16 8).toNat + 2 ^ 24 * (w.extractLsb' 24 8).toNat := by
  have hw : w.toNat < 2 ^ 32 := w.isLt
  simp only [BitVec.extractLsb'_toNat, Nat.shiftRight_eq_div_pow]
  omega

/-- Words with the same four bytes are equal. -/
theorem word_ext_bytes {v w : Word}
    (h : ∀ k : Fin 4, v.extractLsb' (8 * k.val) 8 = w.extractLsb' (8 * k.val) 8) : v = w := by
  have h0 : v.extractLsb' 0 8 = w.extractLsb' 0 8 := h 0
  have h1 : v.extractLsb' 8 8 = w.extractLsb' 8 8 := h 1
  have h2 : v.extractLsb' 16 8 = w.extractLsb' 16 8 := h 2
  have h3 : v.extractLsb' 24 8 = w.extractLsb' 24 8 := h 3
  apply BitVec.eq_of_toNat_eq
  rw [toNat_eq_bytes v, toNat_eq_bytes w, h0, h1, h2, h3]

/-- Settles O9: the value of the word is that of its bytes, and these are the buffer's. -/
theorem wordsAreLittleEndian : Obligations.WordsAreLittleEndian := by
  refine ⟨fun n buf off h => ?_, by decide⟩
  have h0 : (le32 buf off h).extractLsb' 0 8 = buf[off] := le32_byte buf off h 0
  have h1 : (le32 buf off h).extractLsb' 8 8 = buf[off + 1] := le32_byte buf off h 1
  have h2 : (le32 buf off h).extractLsb' 16 8 = buf[off + 2] := le32_byte buf off h 2
  have h3 : (le32 buf off h).extractLsb' 24 8 = buf[off + 3] := le32_byte buf off h 3
  rw [toNat_eq_bytes, h0, h1, h2, h3]

/-- Byte `4*i + k` of the view is byte `k` of word `i` (R45). -/
theorem byteView_getElem (ws : Words16) (i : Fin 16) (k : Fin 4) :
    (byteView ws)[4 * i.val + k.val] = ws[i].extractLsb' (8 * k.val) 8 := by
  have hdiv : (4 * i.val + k.val) / 4 = i.val := by omega
  have hmod : (4 * i.val + k.val) % 4 = k.val := by omega
  simp [byteView, hdiv, hmod]

/-- `le32` reads the words of a state back from its view. -/
theorem le32_byteView (ws : Words16) (i : Fin 16) :
    le32 (byteView ws) (4 * i.val) (by omega) = ws[i] :=
  word_ext_bytes fun k => (le32_byte _ _ _ k).trans (byteView_getElem ws i k)

/-- The last two words of an assembled Final State are the last nonce segment (R164), so their bytes
in the view are the nonce's. -/
theorem byteView_assemble_tail (sk : Words8) (nonce : Nonce) (k : Fin 8) :
    (byteView (assemble sk nonce))[56 + k.val] = nonce[16 + k.val] := by
  have hlow (j : Fin 4) : (byteView (assemble sk nonce))[56 + j.val] = nonce[16 + j.val] :=
    (byteView_getElem (assemble sk nonce) 14 j).trans (le32_byte nonce 16 (by decide) j)
  have hhigh (j : Fin 4) : (byteView (assemble sk nonce))[60 + j.val] = nonce[20 + j.val] :=
    (byteView_getElem (assemble sk nonce) 15 j).trans (le32_byte nonce 20 (by decide) j)
  match k with
  | 0 => exact hlow 0
  | 1 => exact hlow 1
  | 2 => exact hlow 2
  | 3 => exact hlow 3
  | 4 => exact hhigh 0
  | 5 => exact hhigh 1
  | 6 => exact hhigh 2
  | 7 => exact hhigh 3

/-- Settles O11, clause by clause. -/
theorem byteViewInvertsPacking : Obligations.ByteViewInvertsPacking :=
  ⟨byteView_getElem, le32_byteView, byteView_assemble_tail⟩

/-! ## Reads of the buffers -/

/-- Settles O28: where VALIDATE passes, a well-formed instruction has the bytes the phases read. -/
theorem everyCarriedDeriveCompletes : Obligations.EveryCarriedDeriveCompletes :=
  fun _ s h => exec_completes_of_wellFormed h s

/-- Settles O12: the two rules of `MemRead`, and no fault where an instruction completes. -/
theorem noReadOutOfBounds : Obligations.NoReadOutOfBounds := by
  refine ⟨fun buf off n => ⟨fun h => ⟨_, memRead_of_le h, fun j => ?_⟩, memRead_of_lt⟩,
    fun i s h hfault => ?_⟩
  · have hj : off + j.val < buf.length := by omega
    simp [hj]
  · obtain ⟨t, ht⟩ := exec_completes_of_wellFormed h s
    cases ht.symm.trans hfault

/-- Settles O30: VALIDATE passes here, and a DERIVE that completes past it has read 32 and 24 bytes;
the only other way it can end is this fault. -/
theorem shortBufferFaults : Obligations.ShortBufferFaults := by
  intro keyBuf nonce s hshort
  rw [exec_derive]
  cases hderive : deriveWith Config.permute20 32 24 (some keyBuf) nonce s with
  | fault f => rw [(deriveWith_fault hderive).1]
  | refused r => exact absurd hderive deriveWith_not_refused
  | next t =>
    obtain ⟨e, he, -⟩ | ⟨k, n, -, hk, hn, -⟩ := deriveWith_next hderive
    · have hpass : validate (some keyBuf).isSome 32 24 = none :=
        validate_eq_none_iff.2 ⟨rfl, rfl, rfl⟩
      cases hpass.symm.trans he
    · obtain hlen | hlen := hshort
      · have hfault : memRead keyBuf 0 32 = .error .memReadOutOfBounds :=
          memRead_of_lt (by omega)
        cases hfault.symm.trans hk
      · have hfault : memRead nonce 0 24 = .error .memReadOutOfBounds :=
          memRead_of_lt (by omega)
        cases hfault.symm.trans hn

/-! ## The update of `(mode, FS)` -/

/-- An instruction that completes has raised one of the two errors of VALIDATE, or has published the
Final State of some key and nonce. -/
theorem exec_next_cases {instr : Instr} {s t : State} (h : exec instr s = .next t) :
    t = s.raise .invalidKey ∨ t = s.raise .invalidNonce ∨
      ∃ key nonce, t = s.derived Config.permute20 key nonce := by
  obtain ⟨klen, nlen, key, nonce⟩ := instr
  obtain ⟨e, he, rfl⟩ | ⟨k, n, -, -, -, rfl⟩ := deriveWith_next h
  · obtain hv | hv | hv := validate_cases key.isSome klen nlen <;> cases hv.symm.trans he
    · exact .inl rfl
    · exact .inr (.inl rfl)
  · exact .inr (.inr ⟨k, n, rfl⟩)

/-- Settles O26: the two errors of VALIDATE write nothing, and publishing writes all at once. -/
theorem deriveChangesAllOrNothing : Obligations.DeriveChangesAllOrNothing := by
  intro i s t h
  obtain rfl | rfl | ⟨key, nonce, rfl⟩ := exec_next_cases h
  · exact ⟨rfl, rfl, .inl ⟨rfl, rfl, rfl, rfl, rfl, rfl, .inl rfl⟩⟩
  · exact ⟨rfl, rfl, .inl ⟨rfl, rfl, rfl, rfl, rfl, rfl, .inr rfl⟩⟩
  · exact ⟨rfl, rfl, .inr ⟨_, rfl, rfl, rfl, rfl, rfl, rfl, rfl⟩⟩

/-- Settles O29: from every state the instruction raises the same error, which is not `OK`, or
publishes the same Final State. -/
theorem deriveForgetsThePast : Obligations.DeriveForgetsThePast := by
  intro i s₁ s₂ t₁ h
  obtain ⟨e, hne, hall⟩ | ⟨key, nonce, hall⟩ := exec_uniform h <;> cases (hall s₁).symm.trans h
  · refine ⟨_, hall s₂, rfl, rfl, ?_⟩
    rintro ⟨payload, hok⟩
    exact absurd rfl (notOK_error hne _ hok).1
  · exact ⟨_, hall s₂, rfl, rfl, fun _ => ⟨rfl, rfl⟩⟩

/-! ## A SAMPLE in the window of a DERIVE -/

/-- While `ready = 0` a SAMPLE behind held-off commands sees the port, and disturbs nothing. -/
theorem window_waiting_sample {view : PortView} (h : view.ready = false) (held : List Cmd)
    {later : List Input} (hlater : ∀ x ∈ later.head?, x.overlaps = false) :
    window view (waiting held ++ { event := .sample, overlaps := true } :: later) =
      .undisturbed [view] (waiting held ++ later) := by
  rw [window_waiting, window_sample view later h, window_of_later view later hlater]
  rfl

/-- Settles O41: the window is undisturbed and the decoded DERIVE completes without a sample of its
own, so the step shows the one view of the SAMPLE. -/
theorem sampleBeforeKeyingSeesNotReady : Obligations.SampleBeforeKeyingSeesNotReady := by
  intro s c ov held later i hs hlater hmode hd
  have hview : s.portView = { ready := false, stateOut := none } := by simp [portView_eq, hmode]
  have hw := window_waiting_sample (view := s.portView) (by rw [hview]) held hlater
  obtain ⟨t, ht⟩ := exec_completes_of_wellFormed (wellFormed_of_decode hd)
    { s with inputs := waiting held ++ later }
  obtain ⟨-, hsampled, -⟩ := deriveChangesAllOrNothing i _ t ht
  refine ⟨t, ht, ?_⟩
  rw [step_of_undisturbed hs rfl hd hw, ht, afterSeeing_next, State.seenFirst, hsampled, hview]
  rfl

end Sys2Proof.Machine
end

