-- ==== Sys2Proof/Proofs/Encoding.lean ====
section
/-!
The statements of spec/30_encoding.md: the fields of the command word and the round trips of the
message (R61 to R65, R70, R72), the assembler's lines (R64, R73), the status word (R66, R67), and
what the command port refuses, answers and stops at (R63, R71, R205). That a word is its five fields
(`toNat_eq_fields`, `word_eq_iff_fields`), the rule of the assembler (`decode_assembleDerive`) and
the status of a DERIVE (`exec_derive_status`) serve the other families too.
-/

namespace Sys2Proof.Machine

/-! ## The fields of the command word -/

theorem fieldOp_toNat (cw : Word) : (fieldOp cw).toNat = cw.toNat % 2 ^ 8 := by
  simp [fieldOp]

theorem fieldKp_eq_decide (cw : Word) : fieldKp cw = decide (cw.toNat / 2 ^ 8 % 2 = 1) :=
  Nat.testBit_eq_decide_div_mod_eq

theorem fieldRsv_toNat (cw : Word) : (fieldRsv cw).toNat = cw.toNat / 2 ^ 9 % 2 ^ 7 := by
  simp only [fieldRsv, BitVec.extractLsb'_toNat, Nat.shiftRight_eq_div_pow]

theorem fieldKlen_toNat (cw : Word) : (fieldKlen cw).toNat = cw.toNat / 2 ^ 16 % 2 ^ 8 := by
  simp only [fieldKlen, BitVec.extractLsb'_toNat, Nat.shiftRight_eq_div_pow]

/-- `NLEN` stands in the uppermost bits, so nothing above it has to be cut off. -/
theorem fieldNlen_toNat (cw : Word) : (fieldNlen cw).toNat = cw.toNat / 2 ^ 24 := by
  have hcw : cw.toNat < 2 ^ 32 := cw.isLt
  simp only [fieldNlen, BitVec.extractLsb'_toNat, Nat.shiftRight_eq_div_pow]
  omega

theorem fieldKp_toNat (cw : Word) : (fieldKp cw).toNat = cw.toNat / 2 ^ 8 % 2 :=
  Nat.toNat_testBit cw.toNat 8

/-- The fields of R61 are all of the word: its value is the sum of theirs, each at its place. -/
theorem toNat_eq_fields (cw : Word) :
    cw.toNat = (fieldOp cw).toNat + 2 ^ 8 * (fieldKp cw).toNat + 2 ^ 9 * (fieldRsv cw).toNat
      + 2 ^ 16 * (fieldKlen cw).toNat + 2 ^ 24 * (fieldNlen cw).toNat := by
  rw [fieldOp_toNat, fieldKp_toNat, fieldRsv_toNat, fieldKlen_toNat, fieldNlen_toNat]
  omega

/-- Words are equal exactly when their fields are. -/
theorem word_eq_iff_fields {v w : Word} :
    v = w ↔ fieldOp v = fieldOp w ∧ fieldKp v = fieldKp w ∧ fieldRsv v = fieldRsv w ∧
      fieldKlen v = fieldKlen w ∧ fieldNlen v = fieldNlen w := by
  refine ⟨by rintro rfl; exact ⟨rfl, rfl, rfl, rfl, rfl⟩, ?_⟩
  rintro ⟨hop, hkp, hrsv, hklen, hnlen⟩
  apply BitVec.eq_of_toNat_eq
  rw [toNat_eq_fields v, toNat_eq_fields w, hop, hkp, hrsv, hklen, hnlen]

theorem isDerive_iff {cw : Word} :
    isDerive cw = true ↔ fieldOp cw = opDerive ∧ fieldRsv cw = 0 := by
  simp [isDerive]

theorem isDerive_commandWord (kp : Bool) (klen nlen : Byte) :
    isDerive (commandWord kp klen nlen) = true :=
  isDerive_iff.2 ⟨fieldOp_commandWord kp klen nlen, fieldRsv_commandWord kp klen nlen⟩

/-- A word of DERIVE is the command word of its own fields. -/
theorem commandWord_fields {cw : Word} (h : isDerive cw = true) :
    commandWord (fieldKp cw) (fieldKlen cw) (fieldNlen cw) = cw := by
  obtain ⟨hop, hrsv⟩ := isDerive_iff.1 h
  exact word_eq_iff_fields.2 ⟨(fieldOp_commandWord ..).trans hop.symm, fieldKp_commandWord ..,
    (fieldRsv_commandWord ..).trans hrsv.symm, fieldKlen_commandWord .., fieldNlen_commandWord ..⟩

/-- The mask of the opcode map keeps `OP` and `RSV` and clears the operand fields. -/
theorem fields_and_mask (cw : Word) :
    fieldOp (cw &&& 0x0000feff) = fieldOp cw ∧ fieldKp (cw &&& 0x0000feff) = false ∧
      fieldRsv (cw &&& 0x0000feff) = fieldRsv cw ∧ fieldKlen (cw &&& 0x0000feff) = 0 ∧
      fieldNlen (cw &&& 0x0000feff) = 0 := by
  have hop : (0x0000feff#32).extractLsb' 0 8 = BitVec.allOnes 8 := by decide
  have hkp : (0x0000feff#32).getLsbD 8 = false := by decide
  have hrsv : (0x0000feff#32).extractLsb' 9 7 = BitVec.allOnes 7 := by decide
  have hklen : (0x0000feff#32).extractLsb' 16 8 = 0#8 := by decide
  have hnlen : (0x0000feff#32).extractLsb' 24 8 = 0#8 := by decide
  simp only [fieldOp, fieldKp, fieldRsv, fieldKlen, fieldNlen, BitVec.extractLsb'_and,
    BitVec.getLsbD_and, BitVec.ofNat_eq_ofNat, hop, hkp, hrsv, hklen, hnlen, BitVec.and_allOnes,
    BitVec.and_zero, Bool.and_false, and_self]

/-- R70's test with the table's mask and match is the decoder's test. -/
theorem isDerive_iff_mask {cw : Word} :
    isDerive cw = true ↔ cw &&& 0x0000feff = 0x00000001 := by
  obtain ⟨hop, hkp, hrsv, hklen, hnlen⟩ := fields_and_mask cw
  have hmatch : fieldOp 0x00000001 = opDerive ∧ fieldKp 0x00000001 = false ∧
      fieldRsv 0x00000001 = 0 ∧ fieldKlen 0x00000001 = 0 ∧ fieldNlen 0x00000001 = 0 := by decide
  obtain ⟨mop, mkp, mrsv, mklen, mnlen⟩ := hmatch
  rw [word_eq_iff_fields, isDerive_iff, hop, hkp, hrsv, hklen, hnlen, mop, mkp, mrsv, mklen, mnlen]
  simp only [true_and, and_true]

/-! ## The decoder and the encoder -/

theorem deliverable_iff {c : Cmd} :
    Deliverable c = true ↔
      c.keyBuf.length = keyLength c.cw ∧ c.nonceBuf.length = nonceLength c.cw := by
  simp only [Deliverable, Bool.and_eq_true, decide_eq_true_eq]

/-- A deliverable message with a word of DERIVE decodes, to the operands of R62. -/
theorem decode_of_isDerive {c : Cmd} (hdeliver : Deliverable c = true)
    (hderive : isDerive c.cw = true) :
    decode c = .ok (.derive (fieldKlen c.cw) (fieldNlen c.cw)
      (if fieldKp c.cw then some c.keyBuf else none) c.nonceBuf) := by
  rw [decode, if_pos hdeliver, if_pos hderive]

/-- Settles O1: the encoding is deliverable and its word is DERIVE's, so it decodes, and each field
of the word is the operand put there. -/
theorem instructionRoundTrip : Obligations.InstructionRoundTrip := by
  rintro ⟨klen, nlen, key, nonce⟩ hwf
  have hdeliver := Laws.EncodeIsDeliverable.derive klen nlen key nonce hwf
  have hkey : (if key.isSome then some (key.getD []) else none) = key := by cases key <;> rfl
  rw [decode_of_isDerive hdeliver (isDerive_commandWord ..)]
  simp only [encode, fieldKlen_commandWord, fieldNlen_commandWord, fieldKp_commandWord, hkey]

/-- Settles O2: the word of a DERIVE is that of its own fields, and where `KP = 0` drops the key
buffer, that buffer is empty (R63). -/
theorem messageRoundTrip : Obligations.MessageRoundTrip := by
  intro c i h
  refine ⟨?_, wellFormed_of_decode h⟩
  obtain ⟨hdeliver, hderive, rfl⟩ := decode_eq_ok h
  have hpresent : (if fieldKp c.cw then some c.keyBuf else none).isSome = fieldKp c.cw := by
    cases fieldKp c.cw <;> rfl
  have hbuffer : (if fieldKp c.cw then some c.keyBuf else none).getD [] = c.keyBuf := by
    cases hkp : fieldKp c.cw with
    | true => rfl
    | false =>
      have hlength : c.keyBuf.length = 0 := by
        simpa [keyLength, hkp] using (deliverable_iff.1 hdeliver).1
      exact (List.length_eq_zero_iff.1 hlength).symm
  rw [encode, hpresent, hbuffer, commandWord_fields hderive]

/-- Settles O3: a deliverable message decodes to a DERIVE exactly when its word is one. -/
theorem maskAndMatchSelectDerive : Obligations.MaskAndMatchSelectDerive := by
  intro c hdeliver
  rw [← isDerive_iff_mask]
  constructor
  · rintro ⟨klen, nlen, key, nonce, h⟩
    obtain ⟨-, hderive, -⟩ := decode_eq_ok h
    exact hderive
  · intro hderive
    exact ⟨_, _, _, _, decode_of_isDerive hdeliver hderive⟩

/-- Settles O4: the operands are the decoder's fields, whose values are at their places. -/
theorem operandsComeFromTheirFields : Obligations.OperandsComeFromTheirFields := by
  intro c klen nlen key nonce h
  obtain ⟨-, -, hi⟩ := decode_eq_ok h
  obtain ⟨rfl, rfl, rfl, rfl⟩ := Instr.derive.inj hi
  refine ⟨fieldKlen_toNat c.cw, fieldNlen_toNat c.cw, ?_, rfl⟩
  simp only [fieldKp_eq_decide, decide_eq_true_eq]

/-- R65: the four parts of a command word do not overlap, and `RSV` is 0. -/
theorem commandWord_toNat (kp : Bool) (klen nlen : Byte) :
    (commandWord kp klen nlen).toNat =
      0x01 + 2 ^ 8 * kp.toNat + 2 ^ 16 * klen.toNat + 2 ^ 24 * nlen.toNat := by
  rw [toNat_eq_fields, fieldOp_commandWord, fieldKp_commandWord, fieldRsv_commandWord,
    fieldKlen_commandWord, fieldNlen_commandWord]
  rfl

/-- Settles O5: the assembler reads the buffers' lengths alone, so each word of the table is one
closed command word. -/
theorem commandWordsOfNamedLengths : Obligations.CommandWordsOfNamedLengths := by
  refine ⟨commandWord_toNat, fun key nonce => ?_⟩
  have hcw (k : Option (List Byte)) : (assembleDerive k nonce).cw =
      commandWord k.isSome (presentedLength (k.getD []).length)
        (presentedLength nonce.length) := rfl
  simp only [hcw, Option.isSome_some, Option.getD_some, Option.isSome_none, Option.getD_none]
  refine ⟨?_, ?_, ?_, ?_, ?_, ?_, ?_⟩
  case refine_2 => intro hn; rw [hn]; decide
  all_goals intro hk hn; rw [hk, hn]; decide

/-- Settles O6, word by word. -/
theorem sampleWordsDecode : Obligations.SampleWordsDecode :=
  ⟨by decide, by decide, by decide, by decide, by decide, by decide, by decide, by decide⟩

/-- Settles O7: the transport has delivered the bytes that the word announces. -/
theorem messageLengthFromWordAlone : Obligations.MessageLengthFromWordAlone := by
  intro c hdeliver
  obtain ⟨hk, hn⟩ := deliverable_iff.1 hdeliver
  rw [hk, hn]
  rfl

/-! ## The assembler -/

theorem presentedLength_toNat (n : Nat) : (presentedLength n).toNat = min n 255 := by
  simp only [presentedLength, BitVec.toNat_ofNat]
  omega

/-- Below 255 the presented length tells the true one (R64). -/
theorem presentedLength_eq_iff {n m : Nat} (hm : m < 255) :
    presentedLength n = BitVec.ofNat 8 m ↔ n = m := by
  rw [← BitVec.toNat_inj, presentedLength_toNat, BitVec.toNat_ofNat]
  omega

/-- The instruction of a line `DERIVE key=…, nonce=…` (R64, R73). -/
def assembledInstr (key : Option (List Byte)) (nonce : List Byte) : Instr :=
  .derive (presentedLength (key.getD []).length) (presentedLength nonce.length)
    (key.map (·.take 255)) (nonce.take 255)

theorem assembleDerive_eq_encode (key : Option (List Byte)) (nonce : List Byte) :
    assembleDerive key nonce = encode (assembledInstr key nonce) := by
  cases key <;> rfl

/-- The buffers are cut where the presented lengths are. -/
theorem assembledInstr_wellFormed (key : Option (List Byte)) (nonce : List Byte) :
    WellFormed (assembledInstr key nonce) = true := by
  cases key <;>
    simp [assembledInstr, WellFormed, keyFits, nonceFits, presentedLength_toNat, Nat.min_comm]

/-- What the assembler makes decodes to the line's instruction. -/
theorem decode_assembleDerive (key : Option (List Byte)) (nonce : List Byte) :
    decode (assembleDerive key nonce) = .ok (assembledInstr key nonce) := by
  rw [assembleDerive_eq_encode]
  exact instructionRoundTrip _ (assembledInstr_wellFormed key nonce)

/-- Settles O54: the line's event is the assembler's message, which decodes to the line's
instruction. -/
theorem deriveLinesAssembleToDerive : Obligations.DeriveLinesAssembleToDerive :=
  fun key nonce => ⟨_, _, _, _, rfl, decode_assembleDerive key nonce, rfl⟩

/-- A DERIVE that completes answers VALIDATE's error, or `OK` where VALIDATE passes. -/
theorem exec_derive_status {klen nlen : Byte} {key : Option (List Byte)} {nonce : List Byte}
    {s t : State} (h : exec (.derive klen nlen key nonce) s = .next t) :
    t.rsp.map (·.status) = some ((validate key.isSome klen nlen).getD .ok) := by
  obtain ⟨e, he, rfl⟩ | ⟨k, n, hv, -, -, rfl⟩ := deriveWith_next h
  · rw [he]; rfl
  · rw [hv]; rfl

/-- On presented lengths VALIDATE answers as on the true ones (R64, R82). -/
theorem validate_presentedLength (key : Option (List Byte)) (nonce : List Byte) :
    (validate key.isSome (presentedLength (key.getD []).length)
        (presentedLength nonce.length)).getD .ok =
      if key.map List.length ≠ some 32 then .invalidKey
      else if nonce.length ≠ 24 then .invalidNonce
      else .ok := by
  have hn : presentedLength nonce.length = nonceBytes ↔ nonce.length = 24 :=
    presentedLength_eq_iff (by decide)
  cases key with
  | none => rfl
  | some buf =>
    have hk : presentedLength buf.length = keyBytes ↔ buf.length = 32 :=
      presentedLength_eq_iff (by decide)
    simp only [validate, Option.isSome_some, Option.getD_some, Option.map_some, ne_eq, hk, hn,
      Option.some.injEq, Bool.true_eq_false, if_false]
    split_ifs <;> rfl

/-- Settles O8: the line's instruction is well formed, so it completes from every state, with the
status that VALIDATE gives the presented lengths. -/
theorem saturatedLengthsAnswerAlike : Obligations.SaturatedLengthsAnswerAlike := by
  intro key nonce s
  obtain ⟨t, ht⟩ := exec_completes_of_wellFormed (assembledInstr_wellFormed key nonce) s
  refine ⟨_, t, _, _, _, _, decode_assembleDerive key nonce, rfl, presentedLength_toNat _,
    presentedLength_toNat _, ht, ?_⟩
  rw [exec_derive_status ht, Option.isSome_map, validate_presentedLength]

/-! ## The command port -/

/-- The transport's check alone refuses a message. -/
theorem step_refused_iff {s : State} {i : Input} {rest : List Input} {c : Cmd}
    (hs : s.inputs = i :: rest) (he : i.event = .command c) :
    step s = .refused .bufferLengthMismatch ↔ ¬ Deliverable c = true := by
  cases hd : decode c with
  | error e =>
    cases e with
    | bufferLengths =>
      simp [step_of_bufferLengths hs he hd, decode_eq_bufferLengths_iff.1 hd]
    | illegalCommand =>
      obtain ⟨hdeliver, -⟩ := decode_eq_illegal_iff.1 hd
      simp [step_of_illegalCommand hs he hd, hdeliver]
  | ok instr =>
    obtain ⟨hdeliver, -, -⟩ := decode_eq_ok hd
    cases hw : window s.portView rest with
    | undisturbed seen rest' =>
      obtain ⟨t, ht⟩ := exec_completes_of_wellFormed (wellFormed_of_decode hd)
        { s with inputs := rest' }
      simp [step_of_undisturbed hs he hd hw, ht, hdeliver]
    | abandoned seen rest' => simp [step_of_abandoned hs he hd hw, hdeliver]
    | sampled => simp [step_of_sampled hs he hd hw, hdeliver]

/-- Settles O33: the statement spells `Deliverable` out in the fields of the word. -/
theorem wrongLengthsAreRefused : Obligations.WrongLengthsAreRefused :=
  fun _ _ _ _ hs => (step_refused_iff hs rfl).trans (not_congr deliverable_iff)

/-- Settles O34: a word that fails R70's test is illegal to the decoder. -/
theorem illegalWordIsAnswered : Obligations.IllegalWordIsAnswered := by
  intro s c ov rest hs hdeliver hmask _
  have hillegal : isDerive c.cw = false :=
    Bool.eq_false_iff.2 fun hderive => hmask (isDerive_iff_mask.1 hderive)
  exact step_of_illegalCommand hs rfl (decode_eq_illegal_iff.2 ⟨hdeliver, hillegal⟩)

/-- A sample of `state_out` behind held-off commands disturbs the window (R205). -/
theorem window_waiting_sampled {view : PortView} {e : Event} (held : List Cmd) (later : List Input)
    (h : e = .readStateOut ∨ (e = .sample ∧ view.ready = true)) :
    window view (waiting held ++ { event := e, overlaps := true } :: later) = .sampled := by
  rw [window_waiting]
  obtain rfl | ⟨rfl, hready⟩ := h
  · rw [window_readStateOut]
  · rw [window_sample_ready view later hready]

/-- Settles O40: while Ready the port shows `ready = 1`, so either event disturbs the window. -/
theorem sampleDuringDeriveFaults : Obligations.SampleDuringDeriveFaults := by
  intro s c ov held e later i hs he hd
  have hsample : e = .readStateOut ∨ (e = .sample ∧ s.portView.ready = true) :=
    he.imp_right fun ⟨hsmp, hmode⟩ => ⟨hsmp, by simp [portView_eq, hmode]⟩
  exact step_of_sampled hs rfl hd (window_waiting_sampled held later hsample)

/-! ## The status word -/

/-- A code stands in the low byte of a word, with zeros above. -/
theorem code_setWidth (st : Status) :
    (st.code.setWidth 32).extractLsb' 0 8 = st.code ∧
      (st.code.setWidth 32).extractLsb' 8 24 = 0 := by
  cases st <;> decide

/-- Settles O37: the status word is its code widened, and each of the four codes is below `0x04`. -/
theorem statusWordLayout : Obligations.StatusWordLayout := by
  refine ⟨fun r => code_setWidth r.status, fun st => ?_, rfl, rfl, rfl, rfl⟩
  cases st <;> decide

end Sys2Proof.Machine
end

