-- ==== Sys2Proof/Proofs/Derive.lean ====
section
/-!
The statements of spec/40_derive.md: what a DERIVE publishes (R80 to R84), what is left alone where
VALIDATE raises an error (R83), and the commands held off until the response (R87).
-/

namespace Sys2Proof.Machine

/-! ## The command -/

/-- Settles O22: the Final State of the key and the nonce is published, and `State.derived` is the
stated record field by field. -/
theorem derivePublishesFinalState : Obligations.DerivePublishesFinalState :=
  fun key nonce s => deriveWith_ok Config.permute20 key nonce s

/-- VALIDATE raises an error exactly where the key is absent or a length field is wrong (R82). -/
theorem validate_error_iff {klen nlen : Byte} {key : Option (List Byte)} :
    (∃ e, validate key.isSome klen nlen = some e) ↔ key = none ∨ klen ≠ 32 ∨ nlen ≠ 24 := by
  rw [← Option.ne_none_iff_exists', ne_eq, validate_eq_none_iff, not_and_or, not_and_or,
    Bool.not_eq_true, Option.isSome_eq_false_iff, Option.isNone_iff_eq_none]

/-- Settles O25: the whole command is `State.raise`, and VALIDATE reads of the buffers only whether
there is a key. -/
theorem errorReadsAndWritesNothing : Obligations.ErrorReadsAndWritesNothing := by
  intro klen nlen key nonce s hbad
  obtain ⟨e, he⟩ := validate_error_iff.2 hbad
  refine ⟨s.raise e, deriveWith_error he s, rfl, rfl, rfl, rfl, rfl, rfl, ?_⟩
  intro key' nonce' hpresence
  rw [← hpresence] at he
  exact deriveWith_error he s

/-! ## Commands held off -/

/-- Commands alone do not disturb a window, and they keep their order (R87). -/
theorem window_waiting_later (view : PortView) (held : List Cmd) {later : List Input}
    (hlater : ∀ x ∈ later.head?, x.overlaps = false) :
    window view (waiting held ++ later) = .undisturbed [] (waiting held ++ later) := by
  rw [window_waiting, window_of_later view later hlater]

/-- Settles O39: the window is undisturbed and sees nothing, so the step is the DERIVE's `exec`, which
completes for a decoded message and leaves the inputs as they are. -/
theorem overlappingCommandsWait : Obligations.OverlappingCommandsWait := by
  intro s c ov held later i hs hlater hd
  have hstep : step s = exec i { s with inputs := waiting held ++ later } := by
    rw [step_of_undisturbed hs rfl hd (window_waiting_later s.portView held hlater), afterSeeing_nil]
  obtain ⟨t, ht⟩ := exec_completes_of_wellFormed (wellFormed_of_decode hd)
    { s with inputs := waiting held ++ later }
  obtain ⟨hinputs, -, -⟩ := deriveChangesAllOrNothing i _ t ht
  exact ⟨hstep, t, hstep.trans ht, hinputs⟩

end Sys2Proof.Machine
end

