-- ==== Sys2Proof/Proofs/InitialLayout.lean ====
section
/-!
The statements of spec/41_initial_layout.md: the words of the Engine State (R101 to R104), and where
the third nonce segment goes (R105). That packed words agree where their bytes do (`le32_congr`), and
that the nonce enters ASSEMBLE in the last two words alone (`assemble_nonce`), serve the other
families too.
-/

namespace Sys2Proof.Machine

/-! ## The words of the Engine State -/

/-- Settles O13: each word of the Engine State is the one that LAYOUT writes at its index. -/
theorem engineStateLayout : Obligations.EngineStateLayout := by
  intro key nonce
  refine ⟨fun j => ?_, fun j => ?_, rfl, rfl, rfl, rfl⟩
  · match j with
    | 0 | 1 | 2 | 3 => rfl
  · match j with
    | 0 | 1 | 2 | 3 | 4 | 5 | 6 | 7 => rfl

/-! ## The third nonce segment -/

/-- A packed word depends on its own four bytes alone (R43). -/
theorem le32_congr {n : Nat} {buf₁ buf₂ : Vector Byte n} {off : Nat} (h : off + 4 ≤ n)
    (hbytes : ∀ k : Fin 4, buf₁[off + k.val] = buf₂[off + k.val]) :
    le32 buf₁ off h = le32 buf₂ off h :=
  word_ext_bytes fun k => by rw [le32_byte, le32_byte, hbytes k]

/-- The Engine State takes nothing from a nonce but its first two segments (R103, R104). -/
theorem layout_congr (key : Key) {n₁ n₂ : Nonce} (h : ∀ b : Fin 16, n₁[b.val] = n₂[b.val]) :
    layout key n₁ = layout key n₂ := by
  have hword (j : Fin 4) : le32 n₁ (4 * j.val) (by omega) = le32 n₂ (4 * j.val) (by omega) :=
    le32_congr (by omega) fun k => h ⟨4 * j.val + k.val, by omega⟩
  have h0 : le32 n₁ 0 = le32 n₂ 0 := hword 0
  have h4 : le32 n₁ 4 = le32 n₂ 4 := hword 1
  have h8 : le32 n₁ 8 = le32 n₂ 8 := hword 2
  have h12 : le32 n₁ 12 = le32 n₂ 12 := hword 3
  simp only [layout, h0, h4, h8, h12]

/-- Another nonce changes the last two words of an assembled Final State alone (R164). -/
theorem assemble_nonce (sk : Words8) (n₁ n₂ : Nonce) :
    assemble sk n₂ = ((assemble sk n₁).set 14 (le32 n₂ 16)).set 15 (le32 n₂ 20) := rfl

theorem assemble_getElem_of_lt (sk : Words8) (n₁ n₂ : Nonce) {j : Nat} (hj : j < 14) :
    (assemble sk n₁)[j] = (assemble sk n₂)[j] := by
  rw [assemble_nonce sk n₁ n₂, Vector.getElem_set_ne _ _ (by omega),
    Vector.getElem_set_ne _ _ (by omega)]

/-- Settles O14: equal Engine States give the engine equal inputs, hence equal subkeys, and ASSEMBLE
puts the rest of the nonce in words 14 and 15. -/
theorem nonceTailOnlyInLastWords : Obligations.NonceTailOnlyInLastWords := by
  intro permute key n₁ n₂ h
  have hes := layout_congr key h
  refine ⟨hes, fun j => ?_⟩
  simp only [deriveFS, hes]
  exact assemble_getElem_of_lt _ n₁ n₂ j.isLt

end Sys2Proof.Machine
end

