-- ==== Sys2Proof/Proofs/Permutation.lean ====
section
/-!
The statements of spec/42_permutation.md: the one request of a DERIVE that passes VALIDATE (R121), and
the subkeys that the test engines of spec/95_test_vectors.md give. The key words of a Final State
for any engine (`deriveFS_getElem_key`) serve the other families too.
-/

namespace Sys2Proof.Machine

/-! ## The request on the engine port -/

/-- An instruction that completes with an exchange is a DERIVE that passes VALIDATE. -/
theorem eq_derive_of_exchanges_ne_nil {instr : Instr} {s t : State} (h : exec instr s = .next t)
    (hx : t.exchanges ≠ []) :
    ∃ key nonce, instr = .derive 32 24 (some key) nonce := by
  obtain ⟨klen, nlen, key, nonce⟩ := instr
  obtain ⟨e, -, rfl⟩ | ⟨k, n, hv, -⟩ := deriveWith_next h
  · exact absurd (State.raise_exchanges s e) hx
  · obtain ⟨hkey, rfl, rfl⟩ := validate_eq_none_iff.1 hv
    obtain ⟨buf, rfl⟩ := Option.isSome_iff_exists.1 hkey
    exact ⟨buf, nonce, rfl⟩

/-- Settles O38: a DERIVE that passes VALIDATE drives its one exchange, and of the ways a step can
complete every other one leaves the engine port quiet. -/
theorem oneRequestPerGoodDerive : Obligations.OneRequestPerGoodDerive := by
  refine ⟨fun key nonce s => ⟨_, deriveWith_ok Config.permute20 key nonce s, rfl⟩,
    fun s t h hx => ?_⟩
  obtain ⟨-, rfl⟩ | ⟨⟨event, ov⟩, rest, hs, hstep⟩ := step_next h
  · exact absurd rfl hx
  obtain ⟨-, rfl⟩ | ⟨-, rfl⟩ | ⟨c, rfl, hcommand⟩ := hstep
  · exact absurd rfl hx
  · exact absurd rfl hx
  obtain ⟨-, rfl⟩ | ⟨instr, hd, seen, rest', ⟨-, rfl⟩ | ⟨hw, u, hu, rfl⟩⟩ := hcommand
  · exact absurd rfl hx
  · exact absurd rfl hx
  · obtain ⟨key, nonce, rfl⟩ := eq_derive_of_exchanges_ne_nil hu hx
    exact ⟨c, ov, rest, key, nonce, hs, hd, seen, rest', hw⟩

/-! ## The engine's answer in the Final State -/

/-- ASSEMBLE puts the subkey in words 4 to 11 (R161). -/
theorem assemble_getElem_key (sk : Words8) (nonce : Nonce) (j : Fin 8) :
    (assemble sk nonce)[4 + j.val] = sk[j] := by
  match j with
  | 0 | 1 | 2 | 3 | 4 | 5 | 6 | 7 => rfl

/-- For any engine a key word of the Final State is the engine's word at its index less the Engine
State's (R140, R161). -/
theorem deriveFS_getElem_key (permute : Words16 → Words16) (key : Key) (nonce : Nonce) (j : Fin 8) :
    (deriveFS permute key nonce)[4 + j.val] =
      (permute (layout key nonce))[xidx[j]] - (layout key nonce)[xidx[j]] := by
  rw [deriveFS, assemble_getElem_key, extract_getElem]

/-- Settles O21: the difference at the index, with the engine's answer written out. -/
theorem testEnginesGiveTheirSubkeys : Obligations.TestEnginesGiveTheirSubkeys := by
  intro key nonce j
  simp only [deriveFS_getElem_key]
  refine ⟨BitVec.sub_self _, ?_, ?_⟩
  · rw [Fin.getElem_fin, Vector.getElem_ofFn]
    exact add_sub_cancel_left _ _
  · rw [Fin.getElem_fin, Vector.getElem_replicate]
    exact BitVec.zero_sub _

end Sys2Proof.Machine
end

