-- ==== Sys2Proof/Proofs/SubkeyExtraction.lean ====
section
/-!
The statements of spec/43_subkey_extraction.md: which of the engine's words reach the Final State
(R142), and that the subtraction can be undone (R143). That EXTRACT reads the engine's answer at the
extraction indices alone (`extract_congr`) serves the other families too.
-/

namespace Sys2Proof.Machine

/-! ## The words that EXTRACT reads -/

/-- The extraction indices in ascending order, as R142 lists them. -/
theorem xidx_mem_ascending (j : Fin 8) :
    xidx[j] ∈ ([0, 5, 6, 7, 8, 9, 10, 15] : List (Fin 16)) := by
  revert j; decide

/-- EXTRACT reads the permutation output at the extraction indices alone (R142). -/
theorem extract_congr {po₁ po₂ : Words16} (es : Words16)
    (h : ∀ j : Fin 8, po₁[xidx[j]] = po₂[xidx[j]]) : extract po₁ es = extract po₂ es := by
  have hword (j : Fin 8) : (extract po₁ es)[j] = (extract po₂ es)[j] := by
    rw [extract_getElem, extract_getElem, h j]
  exact Vector.ext fun j hj => hword ⟨j, hj⟩

/-- Settles O16: both engines are asked for the same Engine State, their answers agree where EXTRACT
reads them, and the rest of the Final State is not the engine's. -/
theorem onlyEightEngineWordsMatter : Obligations.OnlyEightEngineWordsMatter := by
  intro p q hagree key nonce
  have hsubkey : extract (p (layout key nonce)) (layout key nonce) =
      extract (q (layout key nonce)) (layout key nonce) :=
    extract_congr _ fun j => hagree _ _ (xidx_mem_ascending j)
  simp only [deriveFS, hsubkey]

/-! ## Undoing the subtraction -/

/-- Settles O17: subtraction modulo 2^32 is undone by addition, and the key words of the Final State
are the differences themselves. -/
theorem subtractionCanBeUndone : Obligations.SubtractionCanBeUndone := by
  refine ⟨fun po es j => ?_, deriveFS_getElem_key⟩
  rw [extract_getElem]
  exact (BitVec.sub_add_cancel _ _).symm

end Sys2Proof.Machine
end

