-- ==== Sys2Proof/Proofs/FinalState.lean ====
section
/-!
The statements of spec/44_final_state.md: the words that ASSEMBLE writes (R160 to R164), what every
published Final State satisfies (R167), and the state output port after PUBLISH (R166).
-/

namespace Sys2Proof.Machine

/-! ## The words of an assembled Final State -/

/-- ASSEMBLE puts the sigma constants in words 0 to 3 (R160). -/
theorem assemble_getElem_sigma (sk : Words8) (nonce : Nonce) (j : Fin 4) :
    (assemble sk nonce)[j.val] = sigma[j] := by
  match j with
  | 0 | 1 | 2 | 3 => rfl

/-- Words 12 to 15 are the counter and the last nonce segment, whatever the subkey (R163, R164). -/
theorem assemble_getElem_tail (sk : Words8) (nonce : Nonce) (j : Fin 4) :
    (assemble sk nonce)[12 + j.val] =
      (#v[counterInit[0], counterInit[1], le32 nonce 16, le32 nonce 20] : Vector Word 4)[j] := by
  match j with
  | 0 | 1 | 2 | 3 => rfl

/-- Settles O18: the words before the subkey are the sigma constants, and those after it come from
the counter and the nonce. -/
theorem subkeyFillsTheKeyWords : Obligations.SubkeyFillsTheKeyWords := by
  refine ⟨assemble_getElem_key, ?_⟩
  rintro sk₁ sk₂ nonce ⟨k, hk⟩ (hlow | hhigh)
  · exact (assemble_getElem_sigma sk₁ nonce ⟨k, hlow⟩).trans
      (assemble_getElem_sigma sk₂ nonce ⟨k, hlow⟩).symm
  · obtain ⟨j, rfl⟩ := Nat.exists_eq_add_of_le (show 12 ≤ k from hhigh)
    have hj : j < 4 := by omega
    exact (assemble_getElem_tail sk₁ nonce ⟨j, hj⟩).trans
      (assemble_getElem_tail sk₂ nonce ⟨j, hj⟩).symm

/-! ## What is published -/

/-- Settles O27: DERIVE publishes `deriveFS`, whose fixed words are ASSEMBLE's, and adding the Engine
State's word to a key word undoes the subtraction of EXTRACT. -/
theorem publishedStateProperties : Obligations.PublishedStateProperties := by
  intro key nonce s
  refine ⟨_, _, deriveWith_ok Config.permute20 key nonce s, rfl,
    assemble_getElem_sigma _ nonce 0, assemble_getElem_sigma _ nonce 1,
    assemble_getElem_sigma _ nonce 2, assemble_getElem_sigma _ nonce 3,
    assemble_getElem_tail _ nonce 0, assemble_getElem_tail _ nonce 1,
    assemble_getElem_tail _ nonce 2, assemble_getElem_tail _ nonce 3, fun j => ?_⟩
  rw [deriveFS_getElem_key]
  exact BitVec.sub_add_cancel _ _

/-- Settles O47: of the effects of a step only the one that publishes answers `OK`, and while Ready
the port shows FS. -/
theorem publishedStateIsOnThePort : Obligations.PublishedStateIsOnThePort := by
  intro s t r h hr hok
  cases step_next_effect h with
  | untouched rsp seen rest hreset hrsp => exact absurd hok (hrsp r hr).1
  | reset seen rest hreset => cases hr
  | published key nonce seen rest hreset =>
    cases hr
    exact ⟨rfl, rfl, stateOut_ready rfl, rfl⟩

end Sys2Proof.Machine
end

