-- ==== Sys2Proof/Proofs/Exceptions.lean ====
section
/-!
The statements of spec/60_exceptions.md: the causes of the two errors of VALIDATE (R181, R182), and
the order in which a command reports them (R184).
-/

namespace Sys2Proof.Machine

/-! ## The two errors of VALIDATE -/

/-- Settles O23: VALIDATE turns the key away, and `State.raise` is the stated record. -/
theorem badKeyAnswersInvalidKey : Obligations.BadKeyAnswersInvalidKey := by
  refine ⟨fun klen nlen key nonce s hbad => ?_, rfl⟩
  have hkey : key.isSome = false ∨ klen ≠ 32 := by
    simpa only [Option.isSome_eq_false_iff, Option.isNone_iff_eq_none] using hbad
  exact deriveWith_error (validate_eq_invalidKey_iff.2 hkey) s

/-- Settles O24: VALIDATE passes the key and turns the nonce away. -/
theorem badNonceAnswersInvalidNonce : Obligations.BadNonceAnswersInvalidNonce :=
  ⟨fun _ _ _ s hlength =>
    deriveWith_error (validate_eq_invalidNonce_iff.2 ⟨rfl, rfl, hlength⟩) s, rfl⟩

/-! ## The order of the errors -/

/-- VALIDATE's answer in the order of R184, the key's error before the nonce's. -/
theorem validate_getD_ok (kp : Bool) (klen nlen : Byte) :
    (validate kp klen nlen).getD .ok =
      if kp = false ∨ klen ≠ 32 then .invalidKey
      else if nlen ≠ 24 then .invalidNonce
      else .ok := by
  split_ifs with hkey hnonce
  · rw [validate_eq_invalidKey_iff.2 hkey, Option.getD_some]
  all_goals
    obtain ⟨hkp, hklen⟩ : kp = true ∧ klen = 32 := by simpa using hkey
  · rw [validate_eq_invalidNonce_iff.2 ⟨hkp, hklen, hnonce⟩, Option.getD_some]
  · rw [validate_eq_none_iff.2 ⟨hkp, hklen, not_not.1 hnonce⟩, Option.getD_none]

/-- An instruction that completes responds, with a payload exactly on `OK` (R66). -/
theorem exec_next_rsp {instr : Instr} {s t : State} (h : exec instr s = .next t) :
    ∃ r, t.rsp = some r ∧ (r.payload.isSome = true ↔ r.status = .ok) := by
  obtain rfl | rfl | ⟨key, nonce, rfl⟩ := exec_next_cases h
  · exact ⟨_, rfl, nofun, nofun⟩
  · exact ⟨_, rfl, nofun, nofun⟩
  · exact ⟨_, rfl, fun _ => rfl, fun _ => rfl⟩

/-- A window that holds a command off is undisturbed where the rest of it is. -/
theorem Window.hold_eq_undisturbed {i : Input} {w : Window} {seen : List PortView}
    {rest : List Input} (h : w.hold i = .undisturbed seen rest) :
    ∃ waits, w = .undisturbed seen waits ∧ rest = i :: waits := by
  cases w with
  | undisturbed seen waits => cases h; exact ⟨waits, rfl, rfl⟩
  | abandoned | sampled => cases h

theorem Window.see_ne_undisturbed_nil (view : PortView) (w : Window) (rest : List Input) :
    w.see view ≠ .undisturbed [] rest := by
  cases w <;> exact nofun

/-- An undisturbed window in which no one looked at the port held commands alone, and these wait. -/
theorem eq_of_window_undisturbed_nil {view : PortView} {rest rest' : List Input}
    (h : window view rest = .undisturbed [] rest') : rest' = rest := by
  induction rest generalizing rest' with
  | nil => cases h; rfl
  | cons i later ih =>
    obtain ⟨event, _ | _⟩ := i
    · cases h; rfl
    cases event with
    | command c =>
      obtain ⟨waits, hw, rfl⟩ := Window.hold_eq_undisturbed h
      rw [ih hw]
    | sample =>
      cases hready : view.ready with
      | true => cases (window_sample_ready view later hready).symm.trans h
      | false =>
        exact absurd ((window_sample view later hready).symm.trans h)
          (Window.see_ne_undisturbed_nil view _ _)
    | readStateOut | reset => cases h

/-- Settles O36: an illegal word is answered before VALIDATE; a DERIVE completes with VALIDATE's
answer. -/
theorem firstErrorIsReported : Obligations.FirstErrorIsReported := by
  intro s c ov rest seen rest' hs hdeliver hw
  cases hderive : isDerive c.cw with
  | false =>
    have hd : decode c = .error .illegalCommand := decode_eq_illegal_iff.2 ⟨hdeliver, hderive⟩
    have hmask : c.cw &&& 0x0000feff ≠ 0x00000001 :=
      isDerive_iff_mask.not.1 (Bool.eq_false_iff.1 hderive)
    exact ⟨_, _, step_of_illegalCommand hs rfl hd, fun _ => rfl, rfl, (if_pos hmask).symm,
      nofun, nofun⟩
  | true =>
    have hd := decode_of_isDerive hdeliver hderive
    obtain ⟨t, ht⟩ := exec_completes_of_wellFormed (wellFormed_of_decode hd)
      { s with inputs := rest' }
    obtain ⟨r, hr, hpayload⟩ := exec_next_rsp ht
    obtain ⟨hinputs, -, -⟩ := deriveChangesAllOrNothing _ _ t ht
    refine ⟨t.seenFirst seen, r, by rw [step_of_undisturbed hs rfl hd hw, ht, afterSeeing_next],
      ?_, hr, ?_, hpayload⟩
    · rintro rfl
      exact hinputs.trans (eq_of_window_undisturbed_nil hw)
    · have hpresent : (if fieldKp c.cw then some c.keyBuf else none).isSome = fieldKp c.cw :=
        Bool.eq_iff_iff.2 Option.isSome_ite
      have hstatus := exec_derive_status ht
      rw [hr, hpresent, validate_getD_ok] at hstatus
      rw [if_neg (not_not.2 (isDerive_iff_mask.1 hderive))]
      exact Option.some.inj hstatus

end Sys2Proof.Machine
end

