-- ==== Sys2Proof/Proofs/ResetAndHazards.lean ====
section
/-!
The storage hazard of spec/70_reset_and_hazards.md: what becomes of the subkey where its words are
written over the Engine State (R206).
-/

namespace Sys2Proof.Machine

/-- In the shared array a key word is computed from the key word that was written over its operand, if
one was, and from the operand itself otherwise (R206). -/
theorem extractInPlace_getElem_key (po es : Words16) (j : Fin 8) :
    (extractInPlace po es)[4 + j.val] =
      po[xidx[j]] - if 4 ≤ (xidx[j]).val ∧ (xidx[j]).val < 4 + j.val
        then (extractInPlace po es)[xidx[j]] else es[xidx[j]] := by
  have hwrites : List.finRange 8 = [0, 1, 2, 3, 4, 5, 6, 7] := by decide
  match j with
  | 0 | 1 | 2 | 3 | 4 | 5 | 6 | 7 =>
    simp [extractInPlace, hwrites, xidx]

/-- The word written for `SK[2]` is right: nothing was written over `ES[10]`. -/
theorem extractInPlace_getElem_six (po es : Words16) :
    (extractInPlace po es)[6] = (extract po es)[2] :=
  (extractInPlace_getElem_key po es 2).trans (extract_getElem po es 2).symm

/-- Settles O19: `SK[4]` and `SK[6]` are differences from the word of the engine's answer that the
shared array subtracts from too, so they are right exactly when the subtrahends agree. Both are wrong
where the engine answers zeros and each word of the Engine State is its own index. -/
theorem sharedArrayBreaksTheSubkey : Obligations.SharedArrayBreaksTheSubkey := by
  refine ⟨fun po es => ⟨?_, ?_⟩,
    Vector.replicate 16 0, Vector.ofFn fun k : Fin 16 => BitVec.ofNat 32 k.val, by decide⟩
  · have hwritten : (extractInPlace po es)[8] = po[6] - (extractInPlace po es)[6] :=
      extractInPlace_getElem_key po es 4
    have hright : (extract po es)[4] = po[6] - es[6] := extract_getElem po es 4
    rw [hwritten, hright, sub_right_inj, extractInPlace_getElem_six]
  · have hwritten : (extractInPlace po es)[10] = po[8] - (extractInPlace po es)[8] :=
      extractInPlace_getElem_key po es 6
    have hright : (extract po es)[6] = po[8] - es[8] := extract_getElem po es 6
    rw [hwritten, hright, sub_right_inj]

end Sys2Proof.Machine
end

/-!
What the command port and the reset input do with what else the outside does: a message presented
next (log entry 6), an illegal word with inputs behind it (R71, log entry 11), a reset in the window
of a DERIVE (R200), and no event at all (log entry 4).
-/

namespace Sys2Proof.Machine

/-! ## A message presented next -/

/-- An opcode-table word is read as an instruction exactly where its message decodes to it. -/
theorem decodeTableWord_eq_some_iff {nbits w : Nat} {i : Instr} :
    decodeTableWord nbits w = some i ↔ decode (tableCmd nbits w) = .ok i := by
  cases hd : decode (tableCmd nbits w) <;> simp [decodeTableWord, hd]

/-- A presented message that decodes runs next: everything else comes after its response, so its
window is undisturbed and sees nothing. -/
theorem step_present {c : Cmd} {i : Instr} (hd : decode c = .ok i) (s : State) :
    step (s.present c) = exec i { s with inputs := afterwards s.inputs } := by
  have hw := window_afterwards (s.present c).portView s.inputs
  exact (step_of_undisturbed rfl rfl hd hw).trans (afterSeeing_nil _)

/-- Settles O32: placing a word is presenting its message. -/
theorem placedWordRunsNext : Obligations.PlacedWordRunsNext :=
  fun s _ _ _ h => step_present (decodeTableWord_eq_some_iff.1 h) s

/-! ## The reset input -/

/-- A reset behind held-off commands abandons the DERIVE, and the commands wait on (R200). -/
theorem window_waiting_reset (view : PortView) (held : List Cmd) (later : List Input) :
    window view (waiting held ++ { event := .reset, overlaps := true } :: later) =
      .abandoned [] (waiting held ++ later) := by
  rw [window_waiting, window_reset]

/-- Settles O42: as the next event a reset takes place at once; behind held-off commands it abandons
the DERIVE, before which no sample has seen anything. -/
theorem resetGivesTheResetState : Obligations.ResetGivesTheResetState := by
  constructor
  · intro s ov rest hs
    exact step_reset hs rfl
  · intro s c ov held later i hs hd
    exact step_of_abandoned hs rfl hd (window_waiting_reset s.portView held later)

/-! ## An illegal word, and no event -/

/-- A deliverable message whose word fails R70's test is illegal to the decoder (R71). -/
theorem decode_of_mask_ne {c : Cmd} (hdeliver : Deliverable c = true)
    (hmask : c.cw &&& 0x0000feff ≠ 0x00000001) : decode c = .error .illegalCommand :=
  decode_eq_illegal_iff.2
    ⟨hdeliver, Bool.eq_false_iff.2 fun hderive => hmask (isDerive_iff_mask.1 hderive)⟩

/-- Settles O35: the answer to an illegal word looks at no input behind it, so with none or with any
the step raises the same error and leaves them waiting. -/
theorem illegalWordHasNoWindow : Obligations.IllegalWordHasNoWindow := by
  intro s c ov rest hdeliver hmask
  have hillegal := decode_of_mask_ne hdeliver hmask
  exact ⟨_, step_of_illegalCommand rfl rfl hillegal, step_of_illegalCommand rfl rfl hillegal⟩

/-- Settles O46: the idle step changes what the ports carry and nothing else. -/
theorem idleBlockKeepsItsState : Obligations.IdleBlockKeepsItsState :=
  fun _ h => step_idle h

end Sys2Proof.Machine
